-- ==== Sys2Proof/Word.lean ====
section
/-! DEFINITION. The value types of the GPIO protocol controller (spec/00_scope.md R6, R7, R8): all integers are
unsigned, bit 0 is the least significant bit, a line level is 0 (low) or 1 (high). -/

namespace Sys2Proof

/-- `u32`: a host register, a command word, an address operand, a chip-description field (R6, R7, R30). -/
abbrev Word := BitVec 32

/-- `u16`: a reduced address, the width of the address latch (R6). -/
abbrev Addr16 := BitVec 16

/-- `u8`: one byte on the data bus (R6). -/
abbrev Byte := BitVec 8

/-- A line level (R8): `true` is 1 (high), `false` is 0 (low). -/
abbrev Level := Bool

end Sys2Proof
end

