-- ==== Sys2Proof/Config.lean ====
section
/-! DEFINITION. The configuration record `Cfg` (spec/00_scope.md R5), fixed for the lifetime of an instance, and the
free values. Every field of `Cfg` is an OPEN parameter of the spec: no value is chosen here (notes/assumptions/1.md). -/

namespace Sys2Proof

/-- `Cfg.LATCH_POLICY` (R5): `always` shifts and latches on every call, `skipSame` skips a repeated address (R147). -/
inductive LatchPolicy where
  | always
  | skipSame
  deriving DecidableEq, Repr, Inhabited

/-- `Cfg.VERIFY_POLICY` (R5): `unbounded` retries for ever, `bounded` gives up after `RETRY_CAP` iterations (R209). -/
inductive VerifyPolicy where
  | unbounded
  | bounded
  deriving DecidableEq, Repr, Inhabited

/-- The configuration record `Cfg` of R5. Durations are whole microseconds. -/
structure Cfg where
  /-- `LATCH_POLICY`. -/
  latchPolicy  : LatchPolicy
  /-- `VERIFY_POLICY`. -/
  verifyPolicy : VerifyPolicy
  /-- `RETRY_CAP`, 1 to 2^32 - 1. -/
  retryCap     : Word
  /-- `T_LATCH`, 1 to 2^32 - 1. -/
  tLatch       : Word
  /-- `T_SHIFT`, 0 to 2^32 - 1. -/
  tShift       : Word
  /-- `T_SETTLE`, 1 to 2^32 - 1. -/
  tSettle      : Word
  /-- `CLK_PER_US`, at least 1; no rule depends on it (R5). -/
  clkPerUs     : Nat
  deriving DecidableEq, Repr

/-- The instance with the defaults R5 gives its delays (`T_LATCH` 1, `T_SHIFT` 0, `T_SETTLE` 1) and the given policies. -/
def Cfg.withDefaults (lp : LatchPolicy) (vp : VerifyPolicy) (cap : Word) : Cfg :=
  { latchPolicy := lp, verifyPolicy := vp, retryCap := cap, tLatch := 1, tShift := 0, tSettle := 1, clkPerUs := 1 }

/-- The latch policy of the instance that reset starts: an OPEN parameter, either value (R5, R311). -/
opaque Config.latchPolicy : LatchPolicy

/-- The verify policy of the instance that reset starts: an OPEN parameter, either value (R5, R311). -/
opaque Config.verifyPolicy : VerifyPolicy

/-- Free numbers behind the OPEN parameters of R5, before their lower bounds are applied. -/
opaque Config.freeRetryCap : Word
/-- See `Config.freeRetryCap`. -/
opaque Config.freeTLatch : Word
/-- `T_SHIFT` has no lower bound, so this is the parameter itself. -/
opaque Config.tShift : Word
/-- See `Config.freeRetryCap`. -/
opaque Config.freeTSettle : Word
/-- See `Config.freeRetryCap`. -/
opaque Config.freeClkPerUs : Nat

/-- The bound "1 to 2^32 - 1" of R5: every number in the range is the image of itself. -/
def Config.atLeastOne (w : Word) : Word := if w = 0 then 1 else w

/-- The configuration of the instance that reset starts: any record within the ranges of R5. -/
def Config.cfg : Cfg :=
  { latchPolicy  := Config.latchPolicy
    verifyPolicy := Config.verifyPolicy
    retryCap     := Config.atLeastOne Config.freeRetryCap
    tLatch       := Config.atLeastOne Config.freeTLatch
    tShift       := Config.tShift
    tSettle      := Config.atLeastOne Config.freeTSettle
    clkPerUs     := Config.freeClkPerUs + 1 }

/-- The unconstrained oracle of R11 and U7: the environment's answer to the n-th sample. A free value: no body, so
nothing can be proved of the byte (notes/assumptions/6.md). -/
opaque Config.freeSample : Nat → Byte

end Sys2Proof
end

