-- ==== Sys2Proof/Syntax.lean ====
section
/-! DEFINITION. The commands (spec/30_encoding.md R92), the chip description (spec/10_state.md R26), the names of the
host registers (R30), the host's inputs (R42, R300) and the assembler lines (R97, R98). -/

namespace Sys2Proof

/-- The five commands, one constructor per row of the opcode map (R92). The operands of READ, WRITE and SETCHIP that
stand in host registers are not in the command word (R93). -/
inductive Instr where
  /-- OPEN (R230). -/
  | openCmd
  /-- CLOSE (R233). -/
  | closeCmd
  /-- SETCHIP (R236). -/
  | setchip
  /-- READ (R180). -/
  | read
  /-- WRITE with its DATA field (R200). -/
  | write (data : Byte)
  deriving DecidableEq, Repr

/-- The seven fields of a chip description (R26). -/
inductive DescField where
  | capacity | clock | wc | wp | oe | od | acc
  deriving DecidableEq, Repr

/-- A chip description (R26): seven `u32` fields, durations in microseconds. -/
@[ext] structure ChipDesc where
  capacity : Word
  clock    : Word
  wc       : Word
  wp       : Word
  oe       : Word
  od       : Word
  acc      : Word
  deriving DecidableEq, Repr

/-- The host registers (R30): the seven CHIP_* and the seven ACT_* registers are named by their field. -/
inductive RegName where
  | cmd | addr | result | status | curAddr | pins | config | retryCap
  | chip (f : DescField)
  | act (f : DescField)
  | tLatch | tShift | tSettle
  deriving DecidableEq, Repr

/-- One host access (R30, R42): a whole-word write or read of the register with a 5-bit index. -/
inductive Access where
  | write (idx : BitVec 5) (value : Word)
  | read (idx : BitVec 5)
  deriving DecidableEq, Repr

/-- What the outside can do at the host side: an access (R42), or an assertion of `rst` (R300, R302).
`reset n` is asserted once the command running before it has emitted `n` more events, at once where no command runs
(notes/assumptions/5.md). -/
inductive HostInput where
  | access (a : Access)
  | reset (afterEvents : Nat)
  deriving DecidableEq, Repr

/-- An assembler line (R97) or pseudo-instruction (R98). -/
inductive Line where
  /-- `WR name, value`. -/
  | wr (r : RegName) (value : Nat)
  /-- `RD name`. -/
  | rd (r : RegName)
  /-- `OPEN`. -/
  | opn
  /-- `CLOSE`. -/
  | cls
  /-- `SETCHIP`. -/
  | setchip
  /-- `READ`. -/
  | read
  /-- `WRITE v`. -/
  | write (v : Nat)
  /-- `READ a`. -/
  | readAt (a : Nat)
  /-- `WRITE a, v`. -/
  | writeAt (a v : Nat)
  /-- `SETCHIP {capacity, clock, wc, wp, oe, od, acc}`. -/
  | setchipWith (d : ChipDesc)
  /-- `ERASE n`. -/
  | erase (n : Nat)
  deriving DecidableEq, Repr

end Sys2Proof
end

