-- ==== Sys2Proof/WellFormed.lean ====
section
/-! DEFINITION. What is well formed: a command word (spec/30_encoding.md R91, R94), a configuration (spec/00_scope.md
R5), an assembler line (R97). The types of `Instr` carry the bounds of its operands, so every term of it is well
formed; the checks stand on the raw forms. -/

namespace Sys2Proof

/-- Every command is well formed: the one operand, DATA of WRITE, is a byte by its type and all 256 values are legal
(R91, spec/95_test_vectors.md section 2.8). -/
def Instr.wf : Instr → Bool
  | .openCmd  => true
  | .closeCmd => true
  | .setchip  => true
  | .read     => true
  | .write _  => true

/-- The illegal words as R94 lists them: OPC 0x00, OPC 0x06 to 0xFF, RSV not 0, DATA not 0 beside OPC 1 to 4. -/
def illegalWord (w : Word) : Bool :=
  let opc := w.toNat % 256
  let data := w.toNat / 256 % 256
  let rsv := w.toNat / 65536
  decide (opc = 0) || decide (6 ≤ opc) || decide (rsv ≠ 0) || (decide (1 ≤ opc ∧ opc ≤ 4) && decide (data ≠ 0))

/-- A command word is well formed when R94 does not list it as illegal. -/
def wordWf (w : Word) : Bool := !illegalWord w

/-- A configuration within the ranges of R5. -/
def Cfg.wf (c : Cfg) : Bool :=
  decide (1 ≤ c.retryCap.toNat) && decide (1 ≤ c.tLatch.toNat) && decide (1 ≤ c.tSettle.toNat) && decide (1 ≤ c.clkPerUs)

/-- A line whose numbers fit their places (R97: `0 <= v <= 255`; R30: registers are 32 bits wide). -/
def Line.wf : Line → Bool
  | .wr _ v         => decide (v < 2 ^ 32)
  | .rd _           => true
  | .opn            => true
  | .cls            => true
  | .setchip        => true
  | .read           => true
  | .write v        => decide (v < 256)
  | .readAt a       => decide (a < 2 ^ 32)
  | .writeAt a v    => decide (a < 2 ^ 32) && decide (v < 256)
  | .setchipWith _  => true
  | .erase n        => decide (n ≤ 2 ^ 32)

end Sys2Proof
end

