-- ==== Sys2Proof/Decode.lean ====
section
/-! DEFINITION. The command format `CMD32` (spec/30_encoding.md R91), the decoder (R95), total on all words, and the
encoder (R92, R97). -/

namespace Sys2Proof

/-- Why a word is ILLEGAL (R94). The block reports all of them alike, as BAD_CMD. -/
inductive Illegal where
  /-- RSV, bits 31:16, is not 0. -/
  | reservedBits
  /-- DATA, bits 15:8, is not 0 and OPC is not that of WRITE. -/
  | dataBits
  /-- OPC, bits 7:0, is unassigned. -/
  | opcode
  deriving DecidableEq, Repr

/-- `OPC`, bits 7:0 (R91). -/
def opcField (w : Word) : Byte := w.extractLsb' 0 8

/-- `DATA`, bits 15:8 (R91). -/
def dataField (w : Word) : Byte := w.extractLsb' 8 8

/-- `RSV`, bits 31:16 (R91). -/
def rsvField (w : Word) : BitVec 16 := w.extractLsb' 16 16

/-- The decode procedure of R95, total on all 2^32 words. -/
def decode (w : Word) : Except Illegal Instr :=
  if rsvField w ≠ 0 then .error .reservedBits
  else if opcField w = 0x05 then .ok (.write (dataField w))
  else if dataField w ≠ 0 then .error .dataBits
  else if opcField w = 0x01 then .ok .openCmd
  else if opcField w = 0x02 then .ok .closeCmd
  else if opcField w = 0x03 then .ok .setchip
  else if opcField w = 0x04 then .ok .read
  else .error .opcode

/-- A `CMD32` word from its three fields, RSV the most significant (R91). -/
def cmd32 (rsv : BitVec 16) (data opc : Byte) : Word := (rsv ++ data) ++ opc

/-- The word of a command (R92, R97). -/
def encode : Instr → Word
  | .openCmd  => cmd32 0 0 0x01
  | .closeCmd => cmd32 0 0 0x02
  | .setchip  => cmd32 0 0 0x03
  | .read     => cmd32 0 0 0x04
  | .write v  => cmd32 0 v 0x05

/-- The `match` column of R92. -/
def matchBits : Instr → Word
  | .openCmd  => 0x00000001
  | .closeCmd => 0x00000002
  | .setchip  => 0x00000003
  | .read     => 0x00000004
  | .write _  => 0x00000005

/-- The `mask` column of R92. -/
def maskBits : Instr → Word
  | .openCmd  => 0xFFFFFFFF
  | .closeCmd => 0xFFFFFFFF
  | .setchip  => 0xFFFFFFFF
  | .read     => 0xFFFFFFFF
  | .write _  => 0xFFFF00FF

/-- The word that a table row's bits stand for, if it is one 32-bit word: the bits above `nbits` are 0. -/
def tableWord (nbits w : Nat) : Nat := w % 2 ^ nbits

/-- The command the decoder reads from an instruction whose bits, as the opcode table numbers them, are `w`. A command
is one 32-bit word (R90), so bits above 31 make it no command. -/
def decodeTableWord (nbits w : Nat) : Option Instr :=
  if tableWord nbits w < 2 ^ 32 then
    match decode (BitVec.ofNat 32 (tableWord nbits w)) with
    | .ok i    => some i
    | .error _ => none
  else none

end Sys2Proof
end

