-- ==== Sys2Proof/Machine/State.lean ====
section
/-! DEFINITION. The state: the record `S` of the block (spec/10_state.md R20 to R27) as `Block`, the environment it is
wired to (spec/20_memory.md R70 to R73), the host's pending inputs, the values the host has read and the trace
(spec/00_scope.md R10, R14). Plain data throughout. -/

namespace Sys2Proof.Machine

/-- The five control pins (R6, R10, R123). -/
inductive Pin where
  | clk | dat | lat | oe | we
  deriving DecidableEq, Repr

/-- Direction of the 8-line data bus (R22): `input` is IN, `output` is OUT. -/
inductive Dir where
  | input
  | output
  deriving DecidableEq, Repr

/-- The events of the trace (R10). -/
inductive Event where
  /-- `PIN(p, l)`. -/
  | pin (p : Pin) (l : Level)
  /-- `CTL_EN`. -/
  | ctlEn
  /-- `DIR(IN)`, `DIR(OUT)`. -/
  | dir (d : Dir)
  /-- `DRV(v)`. -/
  | drv (v : Byte)
  /-- `SMP(v)`. -/
  | smp (v : Byte)
  /-- `D(n)`: at least `n` microseconds pass (R12). -/
  | delay (us : Nat)
  deriving DecidableEq, Repr

/-- The error codes (R260); 6 to 15 are never produced, so they have no constructor (notes/assumptions/16.md). -/
inductive Code where
  | ok | noChip | writeFailed | notOpen | badCmd | badChip
  deriving DecidableEq, Repr

/-- The sub-phases of `SetAddress` (R27): SA_TEST, SA_BIT(15) to SA_BIT(0), SA_LATCH. -/
inductive AddrPhase where
  | test
  | bit (i : Fin 16)
  | latch
  deriving DecidableEq, Repr

/-- The sequencer phases (R27), the source's step numbers. -/
inductive Phase where
  | idle
  | op1 | op2 | op3 | op4 (sub : AddrPhase)
  | cl1
  | sc1
  | rd1 | rd2 | rd3 (sub : AddrPhase) | rd4 | rd5
  | wr1 | wr2 (sub : AddrPhase) | wr3 | wr4 | wr5 | wr6a | wr6b | wr6c | wr6d
  deriving DecidableEq, Repr

/-- The record `S` (R20): the whole state of the block. The temporaries (`aEff` to `iter`) keep the last command's values
while IDLE and across commands that do not write them, where R25 and U6 leave them unspecified (DESIGN CHOICE,
notes/assumptions/8.md). -/
@[ext] structure Block where
  /-- `S.open` (R21). -/
  isOpen  : Bool
  /-- `S.chip`, the bound chip description (R21, R26). -/
  chip    : Option ChipDesc
  /-- `S.stg`, the staged chip description (R26, R39). -/
  stg     : ChipDesc
  /-- `S.addr_reg`, host register ADDR (R32). -/
  addrReg : Word
  /-- `S.result`, host register RESULT (R33). -/
  result  : BitVec 9
  /-- `S.code`, STATUS.CODE (R34). -/
  code    : Code
  /-- `S.cur_addr`, the cached latched address (R22). -/
  curAddr : Addr16
  /-- `S.dir` (R22). -/
  dir     : Dir
  /-- `S.clk` (R23). -/
  clk     : Level
  /-- `S.dat` (R23). -/
  dat     : Level
  /-- `S.lat` (R23). -/
  lat     : Level
  /-- `S.oe`, active low (R8, R23). -/
  oe      : Level
  /-- `S.we`, active low (R8, R23). -/
  we      : Level
  /-- `S.driven` (R23). -/
  driven  : Bool
  /-- `S.dout` (R24). -/
  dout    : Byte
  /-- `S.seq` (R27). -/
  seq     : Phase
  /-- `S.a_eff` (R25). -/
  aEff    : Addr16
  /-- `S.wval` (R25). -/
  wval    : Byte
  /-- `S.r1` (R25). -/
  r1      : Byte
  /-- `S.r2` (R25). -/
  r2      : Byte
  /-- `S.iter` (R25, R270). -/
  iter    : Word
  deriving DecidableEq, Repr

/-- A byte array: the cells in rising address order, every other address reads as `fill` (notes/assumptions/11.md). -/
@[ext] structure Memory where
  fill  : Byte
  cells : List Host.Cell
  deriving DecidableEq, Repr

/-- The kinds of reference chip (R71, R72, R73). -/
inductive ChipKind where
  | ideal | delayed | never
  deriving DecidableEq, Repr

/-- A byte whose new content is not visible yet (R72): until `visibleAt` a sample answers `old`. -/
structure Shadow where
  addr      : Nat
  old       : Byte
  visibleAt : Nat
  deriving DecidableEq, Repr

/-- A reference chip (R71 to R73). -/
@[ext] structure RefChip where
  kind     : ChipKind
  capacity : Nat
  mem      : Memory
  shadows  : List Shadow
  deriving DecidableEq, Repr

/-- What stands at the data bus and answers samples (R11, R70 to R73, R166; spec/95_test_vectors.md section 0). -/
inductive Device where
  /-- The unconstrained oracle (R11). -/
  | oracle
  /-- The script `[b1, b2, ...]`; the unconstrained oracle once it has run out. -/
  | script (answers : List Byte)
  /-- The bus keeper of R166: answers the byte that was last on the lines while the block drove them. -/
  | keeper (last : Byte)
  /-- A reference chip behind the latch. -/
  | chip (c : RefChip)
  deriving DecidableEq, Repr

/-- The environment (R11, R46): the external latch IC, the device on the data bus, the reference time. -/
@[ext] structure Env where
  /-- `SR`, the shift stage of `LATCH16` (R70). -/
  sr      : Addr16
  /-- `A`, the committed address of `LATCH16` (R70). -/
  latch   : Addr16
  /-- What answers a sample. -/
  device  : Device
  /-- The reference time (R12): the sum of the waits so far, in microseconds. -/
  now     : Nat
  /-- How many samples have been answered; it numbers the free answers (notes/assumptions/6.md). -/
  samples : Nat
  deriving DecidableEq, Repr

/-- The machine: the block with its configuration, its environment, the host's inputs and the observables of R14. -/
@[ext]
structure State where
  /-- `Cfg` (R5): straps, read by the step and written by nothing (notes/assumptions/1.md). -/
  cfg     : Cfg
  /-- `S` (R20). -/
  blk     : Block
  /-- The environment (R11). -/
  env     : Env
  /-- The host's inputs still to come, the next one first (R42; notes/assumptions/4.md). -/
  host    : List HostInput
  /-- The values returned by the host's register reads, the oldest first (R14). -/
  replies : List Word
  /-- The trace, the oldest event first (R10). -/
  trace   : List Event
  deriving DecidableEq, Repr

/-- Faults. -/
inductive Fault where
  /-- Raised by `resume` where the sequencer stands inside READ or WRITE and no chip is bound: the rules of those
  phases use `T`, which "is only used where S.chip is bound" (R9). Safe; no run reaches it (R180, R200). -/
  | chipUnbound
  deriving DecidableEq, Repr

/-- Refusals. -/
inductive Refusal where
  /-- An instruction that has no meaning yet, by its mnemonic. No arm of `exec` raises it. -/
  | notModelled (mnemonic : String)
  /-- Raised by `readByte` where the data bus is in output direction (R163, U4: "a model should refuse it rather than
  give it a value"). Safe; no command reaches it. -/
  | readByteWhileOutput
  deriving DecidableEq, Repr

/-- The outcome of an operation of the machine. -/
abbrev Out (α : Type) := Host.Outcome α Fault Refusal

/-- The reset value of `S.stg`: all seven fields 0 (R44). -/
def noDesc : ChipDesc := { capacity := 0, clock := 0, wc := 0, wp := 0, oe := 0, od := 0, acc := 0 }

/-- The reset values of `S` (R44). The temporaries `a_eff`, `wval`, `r1`, `r2`, `iter` are unspecified there; they are
given 0 (DESIGN CHOICE, notes/assumptions/8.md). -/
def Block.reset : Block :=
  { isOpen := false, chip := none, stg := noDesc, addrReg := 0, result := 0, code := .ok
    curAddr := 0, dir := .input, clk := false, dat := false, lat := false, oe := true, we := true
    driven := false, dout := 0, seq := .idle, aEff := 0, wval := 0, r1 := 0, r2 := 0, iter := 0 }

/-- The environment before anything has happened: the unconstrained oracle; `SR` and `A`, which R70 leaves unspecified
at power-on, at 0 (DESIGN CHOICE, notes/assumptions/7.md). -/
def Env.powerOn : Env := { sr := 0, latch := 0, device := .oracle, now := 0, samples := 0 }

/-- The machine right after reset (R44, R300): the block at its reset values, no host input pending, nothing read, an
empty trace, the configuration free (R5). -/
def State.reset : State :=
  { cfg := Config.cfg, blk := Block.reset, env := Env.powerOn, host := [], replies := [], trace := [] }

end Sys2Proof.Machine
end

