-- ==== Sys2Proof/Machine/Operands.lean ====
section
/-! DEFINITION. Operand assembly (spec/30_encoding.md R93) and the block's arithmetic (spec/00_scope.md R13): address
reduction, byte split, bit extraction, the fields of a chip description. -/

namespace Sys2Proof.Machine

/-- The number of chip addresses that can be reached, `min(capacity, 65536)` (R64, R69). -/
def addressable (capacity : Word) : Nat := min capacity.toNat 65536

/-- `reduce(addr, capacity) = addr mod min(capacity, 65536)` (R64). -/
def reduce (addr capacity : Word) : Addr16 := BitVec.ofNat 16 (addr.toNat % addressable capacity)

/-- The high byte of a latch address, `a[15:8]` (R93 e). -/
def hiByte (a : Addr16) : Byte := a.extractLsb' 8 8

/-- The low byte of a latch address, `a[7:0]` (R93 e). -/
def loByte (a : Addr16) : Byte := a.extractLsb' 0 8

/-- `zext_9(v)` (R7, R33). -/
def zext9 (v : Byte) : BitVec 9 := v.setWidth 9

/-- A field of a chip description (R26). -/
def descGet (d : ChipDesc) : DescField → Word
  | .capacity => d.capacity
  | .clock    => d.clock
  | .wc       => d.wc
  | .wp       => d.wp
  | .oe       => d.oe
  | .od       => d.od
  | .acc      => d.acc

/-- A chip description with one field replaced (R39: a write changes only that field). -/
def descSet (d : ChipDesc) (v : Word) : DescField → ChipDesc
  | .capacity => { d with capacity := v }
  | .clock    => { d with clock := v }
  | .wc       => { d with wc := v }
  | .wp       => { d with wp := v }
  | .oe       => { d with oe := v }
  | .od       => { d with od := v }
  | .acc      => { d with acc := v }

/-- The operands a READ or WRITE takes when it starts (R93 a, R64): `S.a_eff` from ADDR and the bound capacity. -/
def latchAddress (T : ChipDesc) (s : State) : State :=
  { s with blk := { s.blk with aEff := reduce s.blk.addrReg T.capacity } }

/-- The byte operand of WRITE (R93 b, R200): `S.wval`. -/
def latchValue (v : Byte) (s : State) : State :=
  { s with blk := { s.blk with wval := v } }

end Sys2Proof.Machine
end

