-- ==== Sys2Proof/Machine/Environment.lean ====
section
/-! DEFINITION. The environment (spec/00_scope.md R11): it watches the events and answers samples. The latch IC
`LATCH16` (spec/20_memory.md R70), the reference chips `IDEAL`, `DELAYED`, `NEVER` (R71 to R73), the bus keeper
(spec/42_data_bus.md R166), scripts (spec/95_test_vectors.md section 0) and the unconstrained oracle. The byte array of
a reference chip is the chip space of R62. -/

namespace Sys2Proof.Machine

/-- The byte listed for an address, if there is one. -/
def lookupCell : List Host.Cell → Nat → Option Byte
  | [], _ => none
  | (k, v) :: rest, a => if k = a then some v else lookupCell rest a

/-- Puts a byte at an address into a rising list of cells; a byte equal to `fill` is not listed. -/
def putCell (fill : Byte) (a : Nat) (v : Byte) : List Host.Cell → List Host.Cell
  | [] => if v = fill then [] else [(a, v)]
  | (k, w) :: rest =>
    if a < k then (if v = fill then (k, w) :: rest else (a, v) :: (k, w) :: rest)
    else if a = k then (if v = fill then rest else (a, v) :: rest)
    else (k, w) :: putCell fill a v rest

/-- What the array holds at an address; an address that is not listed holds `fill` (notes/assumptions/11.md). -/
def Memory.read (m : Memory) (a : Nat) : Byte := (lookupCell m.cells a).getD m.fill

/-- Stores a byte. -/
def Memory.write (m : Memory) (a : Nat) (v : Byte) : Memory := { m with cells := putCell m.fill a v m.cells }

/-- The canonical form: addresses of the 16-bit chip space, strictly rising, and no cell equal to `fill`. -/
abbrev Memory.wf (m : Memory) : Prop :=
  m.cells.Pairwise (fun x y => x.1 < y.1) ∧ ∀ c ∈ m.cells, c.1 < 65536 ∧ c.2 ≠ m.fill

/-- The array index a latched address selects, `a mod capacity` (R71). -/
def RefChip.index (c : RefChip) (a : Addr16) : Nat := a.toNat % c.capacity

/-- What the chip outputs for an address at a time: `MemRead(a,1)` (R71), the old content before a DELAYED write has
become visible (R72). -/
def RefChip.output (c : RefChip) (now : Nat) (a : Addr16) : Byte :=
  match c.shadows.find? (fun h => h.addr == c.index a && decide (now < h.visibleAt)) with
  | some h => h.old
  | none   => c.mem.read (c.index a)

/-- What a write pulse does to the array (R71 at once, R72 visible `wc` later, R73 nothing). -/
def RefChip.commit (c : RefChip) (now wc : Nat) (a : Addr16) (v : Byte) : RefChip :=
  match c.kind with
  | .ideal   => { c with mem := c.mem.write (c.index a) v }
  | .delayed =>
    { c with
      mem := c.mem.write (c.index a) v
      shadows := { addr := c.index a, old := c.output now a, visibleAt := now + wc }
                  :: c.shadows.filter (fun h => h.addr != c.index a) }
  | .never   => c

/-- Drops the shadows of writes that are visible at `now` (R72). -/
def RefChip.expire (c : RefChip) (now : Nat) : RefChip :=
  { c with shadows := c.shadows.filter (fun h => decide (now < h.visibleAt)) }

/-- A write pulse ends at the device. -/
def Device.commit (d : Device) (now wc : Nat) (a : Addr16) (v : Byte) : Device :=
  match d with
  | .chip c => .chip (c.commit now wc a v)
  | d       => d

/-- Time has passed at the device. -/
def Device.expire (d : Device) (now : Nat) : Device :=
  match d with
  | .chip c => .chip (c.expire now)
  | d       => d

/-- The block drives the data lines with `v` (R166). -/
def Device.driveLines (d : Device) (v : Byte) : Device :=
  match d with
  | .keeper _ => .keeper v
  | d         => d

/-- A sample has been answered: a script moves on. -/
def Device.advance (d : Device) : Device :=
  match d with
  | .script (_ :: rest) => .script rest
  | d                   => d

/-- `T.wc` for the DELAYED chip (R72), 0 where no chip is bound. -/
def wcTime (b : Block) : Nat :=
  match b.chip with
  | some T => T.wc.toNat
  | none   => 0

/-- `SR[14:0] ++ S.dat` (R70). -/
def shiftIn (sr : Addr16) (b : Level) : Addr16 := (sr.extractLsb' 0 15) ++ BitVec.ofBool b

/-- A rising edge of a pin, from the register's level before the event and the level written; only while the pins are
driven (R10, R23, R70). -/
def risingEdge (b : Block) (old new : Level) : Bool := b.driven && !old && new

/-- What the environment does when it sees an event; `b` is the block just before the event's register write. -/
def Env.observe (v : Env) (b : Block) : Event → Env
  | .pin .clk l  => if risingEdge b b.clk l then { v with sr := shiftIn v.sr b.dat } else v
  | .pin .lat l  => if risingEdge b b.lat l then { v with latch := v.sr } else v
  | .pin .we l   =>
    if risingEdge b b.we l && (b.dir == .output) then
      { v with device := v.device.commit v.now (wcTime b) v.latch b.dout }
    else v
  | .pin .dat _  => v
  | .pin .oe _   => v
  | .ctlEn       => v
  | .dir .output => { v with device := v.device.driveLines b.dout }
  | .dir .input  => v
  | .drv x       => if b.dir = .output then { v with device := v.device.driveLines x } else v
  | .smp _       => { v with samples := v.samples + 1, device := v.device.advance }
  | .delay n     => { v with now := v.now + n, device := v.device.expire (v.now + n) }

/-- The answer to a sample (R11). A reference chip answers while OE is low on a driven pin and the bus is input; in any
other situation its answer is unspecified (R71), which is a free value. -/
def Env.answer (v : Env) (b : Block) : Byte :=
  match v.device with
  | .oracle            => Config.freeSample v.samples
  | .script []         => Config.freeSample v.samples
  | .script (x :: _)   => x
  | .keeper x          => x
  | .chip c            =>
    if b.driven && !b.oe && (b.dir == .input) then c.output v.now v.latch else Config.freeSample v.samples

end Sys2Proof.Machine
end

