-- ==== Sys2Proof/Machine/Flags.lean ====
section
/-! DEFINITION. The flags and the read-only views (spec/10_state.md R29, R33 to R38, R40). -/

namespace Sys2Proof.Machine

/-- The number of an error code (R34, R260). -/
def codeBits : Code → BitVec 4
  | .ok          => 0
  | .noChip      => 1
  | .writeFailed => 2
  | .notOpen     => 3
  | .badCmd      => 4
  | .badChip     => 5

/-- The failure sentinel, RESULT.FAIL with BYTE 0 (R33). -/
def sentinel : BitVec 9 := 0x100

/-- RESULT as the host reads it (R33). -/
def resultWord (b : Block) : Word := b.result.setWidth 32

/-- STATUS (R34): CODE [3:0], OPEN bit 4, CHIP_SET bit 5. -/
def statusWord (b : Block) : Word :=
  (0 : BitVec 26) ++ BitVec.ofBool b.chip.isSome ++ BitVec.ofBool b.isOpen ++ codeBits b.code

/-- CUR_ADDR (R35). -/
def curAddrWord (b : Block) : Word := b.curAddr.setWidth 32

/-- PINS (R36): clk, dat, lat, oe, we, DIR, driven in bits 0 to 6, `dout` in [15:8]. -/
def pinsWord (b : Block) : Word :=
  (0 : BitVec 16) ++ b.dout ++ BitVec.ofBool false ++ BitVec.ofBool b.driven ++ BitVec.ofBool (b.dir == .output)
    ++ BitVec.ofBool b.we ++ BitVec.ofBool b.oe ++ BitVec.ofBool b.lat ++ BitVec.ofBool b.dat ++ BitVec.ofBool b.clk

/-- CONFIG (R37): LATCH_POLICY bit 0, VERIFY_POLICY bit 1. -/
def configWord (c : Cfg) : Word :=
  (0 : BitVec 30) ++ BitVec.ofBool (c.verifyPolicy == .bounded) ++ BitVec.ofBool (c.latchPolicy == .skipSame)

/-- An ACT_* register (R40): the field of the bound description, 0 where none is bound. -/
def actWord (b : Block) (f : DescField) : Word :=
  match b.chip with
  | some d => descGet d f
  | none   => 0

end Sys2Proof.Machine
end

