-- ==== Sys2Proof/Machine/Ops.lean ====
section
/-! DEFINITION. The shared operations: emitting an event with its register write (spec/00_scope.md R10,
spec/40_pin_primitives.md R120 to R122), the sequencer's phase (spec/10_state.md R27), completing a command (R33, R34),
taking an error (spec/60_exceptions.md R262), reset (spec/70_reset_and_hazards.md R300, R302). -/

namespace Sys2Proof.Machine

/-- Goes on with the result of an operation that answered; a fault or a refusal ends the run. -/
def andThen {α β : Type} (o : Out α) (f : α → Out β) : Out β :=
  match o with
  | .next a    => f a
  | .fault r   => .fault r
  | .refused r => .refused r

/-- Writes the output register of a control pin (R23). -/
def Block.writePin (b : Block) (p : Pin) (l : Level) : Block :=
  match p with
  | .clk => { b with clk := l }
  | .dat => { b with dat := l }
  | .lat => { b with lat := l }
  | .oe  => { b with oe := l }
  | .we  => { b with we := l }

/-- The register write that goes with an event (R10, R120, R161, R162, R164, R231). -/
def Block.absorb (b : Block) : Event → Block
  | .pin p l => b.writePin p l
  | .ctlEn   => { b with driven := true }
  | .dir d   => { b with dir := d }
  | .drv v   => { b with dout := v }
  | .smp _   => b
  | .delay _ => b

/-- `emit e` together with the register write the rules put beside it: the environment sees the event with the
registers as they stood, the block has them written, the trace has the event (R10). -/
def emit (e : Event) (s : State) : State :=
  { s with blk := s.blk.absorb e, env := s.env.observe s.blk e, trace := s.trace ++ [e] }

/-- A list of events, one after the other. -/
def replay (es : List Event) (s : State) : State := es.foldl (fun s e => emit e s) s

/-- `Delay(d)` (R122). -/
def delay (d : Word) (s : State) : State := if d = 0 then s else emit (.delay d.toNat) s

/-- `SetPin(p, l, d)` (R120). -/
def setPin (p : Pin) (l : Level) (d : Word) (s : State) : State := delay d (emit (.pin p l) s)

/-- `SEQ <- p` (R9, R27). -/
def atPhase (p : Phase) (s : State) : State := { s with blk := { s.blk with seq := p } }

/-- `S.cur_addr <- a` (R146, R148). -/
def setCurAddr (a : Addr16) (s : State) : State := { s with blk := { s.blk with curAddr := a } }

/-- The end of a command that completes with `OK` (R33, R34). The temporaries keep their values, which R25 leaves
unspecified while IDLE (DESIGN CHOICE, notes/assumptions/8.md). -/
def complete (r : BitVec 9) (s : State) : State :=
  { s with blk := { s.blk with result := r, code := .ok, seq := .idle } }

/-- Taking an error, `raise E` (R262): the code, the sentinel, the idle phase, and nothing else. There is no handler and
no saved state, so there is no return from it: the block is ready for the next command (R265). The end of a WRITE whose
retry budget is spent writes the same three registers (R209, R264). -/
def raise (e : Code) (s : State) : State :=
  { s with blk := { s.blk with code := e, result := sentinel, seq := .idle } }

/-- What `rst` does (R300, R301): `S` takes its reset values, no event is emitted, the environment is not touched. -/
def resetBlock (s : State) : State := { s with blk := Block.reset }

/-- The pre-checks of READ and WRITE in their order (R180, R200, R263), then the command with `T` the bound chip. -/
def withSession (s : State) (k : ChipDesc → Out State) : Out State :=
  if s.blk.isOpen then
    match s.blk.chip with
    | some T => k T
    | none   => .next (raise .noChip s)
  else .next (raise .notOpen s)

end Sys2Proof.Machine
end

