-- ==== Sys2Proof/Machine/AddressLatch.lean ====
section
/-! DEFINITION. The Address Latch Driver (spec/41_address_latch.md R140 to R148). `outer` names the phase the address
sub-sequence runs in: OP4, RD3 or WR2 (spec/10_state.md R27). -/

namespace Sys2Proof.Machine

/-- `ShiftBit(b)` (R142). -/
def shiftBit (b : Level) (s : State) : State :=
  setPin .clk false s.cfg.tShift (setPin .clk true s.cfg.tShift (setPin .dat b 0 s))

/-- The bits `x[n-1]` down to `x[0]`, each in the phase that `lab` gives its index (R143, R27). -/
def shiftBits (lab : Nat → Phase) (x : Byte) : Nat → State → State
  | 0, s     => s
  | n + 1, s => shiftBits lab x n (shiftBit (x.getLsbD n) (atPhase (lab n) s))

/-- `ShiftByte(x)`, most significant bit first (R143). -/
def shiftByte (lab : Nat → Phase) (x : Byte) (s : State) : State := shiftBits lab x 8 s

/-- `LatchPulse()` (R144). -/
def latchPulse (outer : AddrPhase → Phase) (s : State) : State :=
  setPin .lat false s.cfg.tLatch (setPin .lat true s.cfg.tLatch (atPhase (outer .latch) s))

/-- The phase of a bit of the high byte. -/
def hiPhase (outer : AddrPhase → Phase) (n : Nat) : Phase := outer (.bit (Fin.ofNat 16 (n + 8)))

/-- The phase of a bit of the low byte. -/
def loPhase (outer : AddrPhase → Phase) (n : Nat) : Phase := outer (.bit (Fin.ofNat 16 n))

/-- `ShiftLatch(a)` (R145): "high byte first". -/
def shiftLatch (outer : AddrPhase → Phase) (a : Addr16) (s : State) : State :=
  latchPulse outer (shiftByte (loPhase outer) (loByte a) (shiftByte (hiPhase outer) (hiByte a) s))

/-- The test of `SetAddress` (R147). -/
def skips (a : Addr16) (s : State) : Bool := (s.cfg.latchPolicy == .skipSame) && (a == s.blk.curAddr)

/-- `SetAddress(a)` (R147); every call ends with the cached address equal to `a` (R146). -/
def setAddress (outer : AddrPhase → Phase) (a : Addr16) (s : State) : State :=
  setCurAddr a
    (if skips a s then atPhase (outer .test) s else shiftLatch outer a (atPhase (outer .test) s))

/-- The rest of `ShiftLatch(a)` from bit `i` on (R27). -/
def shiftFrom (outer : AddrPhase → Phase) (a : Addr16) (i : Fin 16) (s : State) : State :=
  latchPulse outer
    (if 8 ≤ i.val then
      shiftByte (loPhase outer) (loByte a) (shiftBits (hiPhase outer) (hiByte a) (i.val - 7) s)
    else shiftBits (loPhase outer) (loByte a) (i.val + 1) s)

/-- The rest of `SetAddress(a)` from a sub-phase on (R27). -/
def setAddressFrom (outer : AddrPhase → Phase) (a : Addr16) (sub : AddrPhase) (s : State) : State :=
  match sub with
  | .test  => setAddress outer a s
  | .bit i => setCurAddr a (shiftFrom outer a i s)
  | .latch => setCurAddr a (latchPulse outer s)

end Sys2Proof.Machine
end

