-- ==== Sys2Proof/Machine/DataBus.lean ====
section
/-! DEFINITION. The Data Bus Driver (spec/42_data_bus.md R160 to R165), `GetPin` (spec/40_pin_primitives.md R121), and
the levels the block puts on its lines (spec/10_state.md R23, R24). -/

namespace Sys2Proof.Machine

/-- `SetDirectionInput()` (R161). -/
def setDirectionInput (s : State) : State := emit (.dir .input) s

/-- `SetDirectionOutput()` (R162). -/
def setDirectionOutput (s : State) : State := emit (.dir .output) s

/-- `WriteByte(value)` (R164): the direction is left as it is (R165). -/
def writeByte (v : Byte) (s : State) : State := emit (.drv v) s

/-- `GetPin(n)` (R121): the level of data line `n` when the environment presents the byte `v`. -/
def getPin (v : Byte) (n : Fin 8) : Level := v.getLsbD n.val

/-- Bit `n` of the result from line `n`, bit 0 the least significant (R66, R163). -/
def packLines (line : Fin 8 → Level) : Byte :=
  BitVec.ofBool (line 7) ++ BitVec.ofBool (line 6) ++ BitVec.ofBool (line 5) ++ BitVec.ofBool (line 4)
    ++ BitVec.ofBool (line 3) ++ BitVec.ofBool (line 2) ++ BitVec.ofBool (line 1) ++ BitVec.ofBool (line 0)

/-- `sample()` (R9, R11): the byte the environment presents at this moment. -/
def sample (s : State) : Byte := s.env.answer s.blk

/-- `ReadByte()` (R163): the eight lines sampled at the same instant and packed; refused in output direction (U4). -/
def readByte (s : State) : Out (Byte × State) :=
  if s.blk.dir = .input then
    let v := packLines (getPin (sample s))
    .next (v, emit (.smp v) s)
  else .refused .readByteWhileOutput

/-- What the block puts on data line `n` (R24): bit `n` of `S.dout` in output direction, nothing in input direction. -/
def dataLine (b : Block) (n : Fin 8) : Option Level :=
  if b.dir = .output then some (b.dout.getLsbD n.val) else none

/-- The output register of a control pin (R23). -/
def pinLevel (b : Block) : Pin → Level
  | .clk => b.clk
  | .dat => b.dat
  | .lat => b.lat
  | .oe  => b.oe
  | .we  => b.we

/-- What the block puts on a control pin (R23): its register's level while the drivers are on, nothing before. -/
def controlPin (b : Block) (p : Pin) : Option Level := if b.driven then some (pinLevel b p) else none

end Sys2Proof.Machine
end

