-- ==== Sys2Proof/Machine/ReadCycle.lean ====
section
/-! DEFINITION. READ, the read cycle (spec/43_read_cycle.md R180, R181), one definition per step of the source. -/

namespace Sys2Proof.Machine

/-- RD1: the bus to input. -/
def readRD1 (s : State) : State := setDirectionInput (atPhase .rd1 s)

/-- RD2: raise OE, hold `OutputDisableTime`. -/
def readRD2 (T : ChipDesc) (s : State) : State := setPin .oe true T.od (atPhase .rd2 s)

/-- RD3: latch the address. -/
def readRD3 (s : State) : State := setAddress .rd3 s.blk.aEff s

/-- RD4: lower OE, hold `OutputEnableTime`. -/
def readRD4 (T : ChipDesc) (s : State) : State := setPin .oe false T.oe (atPhase .rd4 s)

/-- READ from RD5 on: one sample, the result (R183). -/
def readFromRD5 (s : State) : Out State :=
  andThen (readByte (atPhase .rd5 s)) fun r => .next (complete (zext9 r.1) r.2)

/-- READ from RD4 on. -/
def readFromRD4 (T : ChipDesc) (s : State) : Out State := readFromRD5 (readRD4 T s)

/-- READ from RD3 on. -/
def readFromRD3 (T : ChipDesc) (s : State) : Out State := readFromRD4 T (readRD3 s)

/-- READ from RD2 on. -/
def readFromRD2 (T : ChipDesc) (s : State) : Out State := readFromRD3 T (readRD2 T s)

/-- READ from RD1 on (R181). -/
def readFromRD1 (T : ChipDesc) (s : State) : Out State := readFromRD2 T (readRD1 s)

/-- READ from a sub-phase of RD3 on (R27). -/
def readResumeRD3 (T : ChipDesc) (sub : AddrPhase) (s : State) : Out State :=
  readFromRD4 T (setAddressFrom .rd3 s.blk.aEff sub s)

/-- READ (R180): the pre-checks, the operand, the cycle. -/
def execRead (s : State) : Out State :=
  withSession s fun T => readFromRD1 T (latchAddress T s)

end Sys2Proof.Machine
end

