-- ==== Sys2Proof/Machine/Session.lean ====
section
/-! DEFINITION. The session commands OPEN, CLOSE, SETCHIP (spec/45_session_commands.md R230 to R240). -/

namespace Sys2Proof.Machine

/-- OP1 (R231). -/
def openOP1 (s : State) : State := setDirectionInput (atPhase .op1 s)

/-- OP2 (R231): WE first, then OE, LAT, CLK, DAT, each at its inactive level. -/
def openOP2 (s : State) : State :=
  setPin .dat false 0 (setPin .clk false 0 (setPin .lat false 0 (setPin .oe true 0 (setPin .we true 0 (atPhase .op2 s)))))

/-- OP3 (R231): the drivers on. -/
def openOP3 (s : State) : State := emit .ctlEn (atPhase .op3 s)

/-- OP4's forced latch of address 0 (R148, R231). -/
def openOP4 (s : State) : State := shiftLatch .op4 0 (setCurAddr 0 (atPhase (.op4 .test) s))

/-- The completion of OPEN (R231). -/
def openDone (s : State) : State := complete 0x001 { s with blk := { s.blk with isOpen := true } }

/-- OPEN from OP4 on. -/
def openFromOP4 (s : State) : Out State := .next (openDone (openOP4 s))

/-- OPEN from OP3 on. -/
def openFromOP3 (s : State) : Out State := openFromOP4 (openOP3 s)

/-- OPEN from OP2 on. -/
def openFromOP2 (s : State) : Out State := openFromOP3 (openOP2 s)

/-- OPEN from OP1 on (R231). -/
def openFromOP1 (s : State) : Out State := openFromOP2 (openOP1 s)

/-- OPEN from a sub-phase of OP4 on; SA_TEST tests nothing there, since OPEN latches 0 under both policies (R148). -/
def openResumeOP4 (sub : AddrPhase) (s : State) : Out State :=
  match sub with
  | .test  => openFromOP4 s
  | .bit i => .next (openDone (shiftFrom .op4 0 i s))
  | .latch => .next (openDone (latchPulse .op4 s))

/-- The completion of CLOSE (R233). -/
def closeDone (s : State) : State := complete 0x000 { s with blk := { s.blk with isOpen := false } }

/-- CLOSE from CL1 on (R233). -/
def closeFromCL1 (s : State) : Out State := .next (closeDone (setDirectionInput (atPhase .cl1 s)))

/-- SETCHIP from SC1 on (R236): all seven fields, as one copy. -/
def setchipFromSC1 (s : State) : Out State :=
  .next (complete 0x000 { s with blk := { s.blk with chip := some s.blk.stg, seq := .sc1 } })

/-- OPEN (R230): no pre-check. -/
def execOpen (s : State) : Out State := openFromOP1 s

/-- CLOSE (R233): no pre-check. -/
def execClose (s : State) : Out State := closeFromCL1 s

/-- SETCHIP (R236): a staged capacity of 0 raises BAD_CHIP (R238). -/
def execSetchip (s : State) : Out State :=
  if s.blk.stg.capacity = 0 then .next (raise .badChip s) else setchipFromSC1 s

end Sys2Proof.Machine
end

