-- ==== Sys2Proof/Machine/WriteCycle.lean ====
section
/-! DEFINITION. WRITE, the write-with-verify cycle (spec/44_write_verify_cycle.md R200 to R210), one definition per
step of the source. A WRITE runs to the end of its first verify iteration; where that iteration neither succeeds nor
spends the budget, the sequencer rests at WR6a and each further step is one more iteration, so that a WRITE that never
completes is a run that never ends (R209, R312, U5; notes/assumptions/3.md). -/

namespace Sys2Proof.Machine

/-- WR1: raise OE, hold `OutputDisableTime` (R201). -/
def writeWR1 (T : ChipDesc) (s : State) : State := setPin .oe true T.od (atPhase .wr1 s)

/-- WR2: latch the address (R202). -/
def writeWR2 (s : State) : State := setAddress .wr2 s.blk.aEff s

/-- WR3: the bus to output, then the byte, no delay between (R203). -/
def writeWR3 (s : State) : State :=
  let s := setDirectionOutput (atPhase .wr3 s)
  writeByte s.blk.wval s

/-- WR4: the write pulse (R204). -/
def writeWR4 (T : ChipDesc) (s : State) : State :=
  setPin .we true T.wc (setPin .we false T.wp (atPhase .wr4 s))

/-- WR5: the bus to input, the iteration count to 0 (R205). -/
def writeWR5 (s : State) : State :=
  let s := setDirectionInput (atPhase .wr5 s)
  { s with blk := { s.blk with iter := 0 } }

/-- One verify reading (R206): lower OE, hold `OutputEnableTime`; sample; raise OE, hold `OutputDisableTime`. -/
def verifyReading (T : ChipDesc) (s : State) : Out (Byte × State) :=
  andThen (readByte (setPin .oe false T.oe s)) fun r => .next (r.1, setPin .oe true T.od r.2)

/-- WR6a: the first reading (R206). -/
def writeWR6a (T : ChipDesc) (s : State) : Out State :=
  andThen (verifyReading T (atPhase .wr6a s)) fun r => .next { r.2 with blk := { r.2.blk with r1 := r.1 } }

/-- WR6b: the second reading (R206). -/
def writeWR6b (T : ChipDesc) (s : State) : Out State :=
  andThen (verifyReading T (atPhase .wr6b s)) fun r => .next { r.2 with blk := { r.2.blk with r2 := r.1 } }

/-- WR6c: the settle tick, in every iteration (R207). -/
def writeWR6c (s : State) : State := delay s.cfg.tSettle (atPhase .wr6c s)

/-- The success test of WR6d (R208). -/
def verified (b : Block) : Bool := (b.r1 == b.r2) && (b.r1 == b.wval)

/-- The termination policy after a failed test (R209). The count stays in `S.iter` once the command is over, where R25
leaves it unspecified (DESIGN CHOICE, notes/assumptions/8.md). -/
def verifyFailed (s : State) : State :=
  match s.cfg.verifyPolicy with
  | .bounded =>
    let s := { s with blk := { s.blk with iter := s.blk.iter + 1 } }
    if s.blk.iter = s.cfg.retryCap then raise .writeFailed s else atPhase .wr6a s
  | .unbounded => atPhase .wr6a s

/-- WR6d (R208, R209). -/
def writeWR6d (s : State) : State :=
  let s := atPhase .wr6d s
  if verified s.blk then complete (zext9 s.blk.r1) s else verifyFailed s

/-- WRITE from WR6d on, to the end of the iteration. -/
def writeFromWR6d (s : State) : Out State := .next (writeWR6d s)

/-- WRITE from WR6c on, to the end of the iteration. -/
def writeFromWR6c (s : State) : Out State := writeFromWR6d (writeWR6c s)

/-- WRITE from WR6b on, to the end of the iteration. -/
def writeFromWR6b (T : ChipDesc) (s : State) : Out State := andThen (writeWR6b T s) writeFromWR6c

/-- One verify iteration, WR6a to WR6d (R206 to R209). -/
def writeFromWR6a (T : ChipDesc) (s : State) : Out State := andThen (writeWR6a T s) (writeFromWR6b T)

/-- WRITE from WR5 on. -/
def writeFromWR5 (T : ChipDesc) (s : State) : Out State := writeFromWR6a T (writeWR5 s)

/-- WRITE from WR4 on. -/
def writeFromWR4 (T : ChipDesc) (s : State) : Out State := writeFromWR5 T (writeWR4 T s)

/-- WRITE from WR3 on. -/
def writeFromWR3 (T : ChipDesc) (s : State) : Out State := writeFromWR4 T (writeWR3 s)

/-- WRITE from WR2 on. -/
def writeFromWR2 (T : ChipDesc) (s : State) : Out State := writeFromWR3 T (writeWR2 s)

/-- WRITE from WR1 on (R210). -/
def writeFromWR1 (T : ChipDesc) (s : State) : Out State := writeFromWR2 T (writeWR1 T s)

/-- WRITE from a sub-phase of WR2 on (R27). -/
def writeResumeWR2 (T : ChipDesc) (sub : AddrPhase) (s : State) : Out State :=
  writeFromWR3 T (setAddressFrom .wr2 s.blk.aEff sub s)

/-- WRITE (R200, R210): the pre-checks, the operands, the cycle. -/
def execWrite (v : Byte) (s : State) : Out State :=
  withSession s fun T => writeFromWR1 T (latchValue v (latchAddress T s))

end Sys2Proof.Machine
end

