-- ==== Sys2Proof/Machine/Dispatch.lean ====
section
/-! DEFINITION. One arm per command (spec/30_encoding.md R92). -/

namespace Sys2Proof.Machine

def exec (i : Instr) (s : State) : Host.Outcome State Fault Refusal :=
  match i with
  | .openCmd => Sys2Proof.Machine.execOpen s
  | .closeCmd => Sys2Proof.Machine.execClose s
  | .setchip => Sys2Proof.Machine.execSetchip s
  | .read => Sys2Proof.Machine.execRead s
  | .write data => Sys2Proof.Machine.execWrite data s

end Sys2Proof.Machine
end

