-- ==== Sys2Proof/Machine/HostPort.lean ====
section
/-! DEFINITION. The host register port (spec/10_state.md R30 to R42): the map, reads, writes, the write to CMD. -/

namespace Sys2Proof.Machine

/-- The index of a register (R30). -/
def regIndex : RegName → BitVec 5
  | .cmd            => 0x00
  | .addr           => 0x01
  | .result         => 0x02
  | .status         => 0x03
  | .curAddr        => 0x04
  | .pins           => 0x05
  | .config         => 0x06
  | .retryCap       => 0x07
  | .chip .capacity => 0x08
  | .chip .clock    => 0x09
  | .chip .wc       => 0x0A
  | .chip .wp       => 0x0B
  | .chip .oe       => 0x0C
  | .chip .od       => 0x0D
  | .chip .acc      => 0x0E
  | .act .capacity  => 0x10
  | .act .clock     => 0x11
  | .act .wc        => 0x12
  | .act .wp        => 0x13
  | .act .oe        => 0x14
  | .act .od        => 0x15
  | .act .acc       => 0x16
  | .tLatch         => 0x17
  | .tShift         => 0x18
  | .tSettle        => 0x19

/-- Every register of the map, in the order of R30. -/
def allRegs : List RegName :=
  [.cmd, .addr, .result, .status, .curAddr, .pins, .config, .retryCap,
   .chip .capacity, .chip .clock, .chip .wc, .chip .wp, .chip .oe, .chip .od, .chip .acc,
   .act .capacity, .act .clock, .act .wc, .act .wp, .act .oe, .act .od, .act .acc,
   .tLatch, .tShift, .tSettle]

/-- The register at an index; `none` for the reserved indices 0x0F and 0x1A to 0x1F (R30, R41). -/
def regAt (idx : BitVec 5) : Option RegName := allRegs.find? (fun r => regIndex r == idx)

/-- What a register reads as (R31 to R40). -/
def regValue (s : State) : RegName → Word
  | .cmd      => 0
  | .addr     => s.blk.addrReg
  | .result   => resultWord s.blk
  | .status   => statusWord s.blk
  | .curAddr  => curAddrWord s.blk
  | .pins     => pinsWord s.blk
  | .config   => configWord s.cfg
  | .retryCap => s.cfg.retryCap
  | .chip f   => descGet s.blk.stg f
  | .act f    => actWord s.blk f
  | .tLatch   => s.cfg.tLatch
  | .tShift   => s.cfg.tShift
  | .tSettle  => s.cfg.tSettle

/-- A host read of an index (R41): a reserved index reads 0. -/
def readReg (s : State) (idx : BitVec 5) : Word :=
  match regAt idx with
  | some r => regValue s r
  | none   => 0

/-- A host write to a register other than CMD (R32, R39, R41): only ADDR and the staging registers take it. -/
def writeReg (w : Word) (s : State) : RegName → State
  | .addr   => { s with blk := { s.blk with addrReg := w } }
  | .chip f => { s with blk := { s.blk with stg := descSet s.blk.stg w f } }
  | _       => s

/-- A host write to CMD (R31, R95): the command the word encodes, or BAD_CMD (R94, R263: decoding comes first). -/
def runCommand (w : Word) (s : State) : Out State :=
  match decode w with
  | .ok i    => exec i s
  | .error _ => .next (raise .badCmd s)

/-- A host write (R31, R41). -/
def hostWrite (idx : BitVec 5) (w : Word) (s : State) : Out State :=
  match regAt idx with
  | some .cmd => runCommand w s
  | some r    => .next (writeReg w s r)
  | none      => .next s

/-- A host read: the value goes to the host, nothing else changes (R14, R41). -/
def hostRead (idx : BitVec 5) (s : State) : State := { s with replies := s.replies ++ [readReg s idx] }

/-- One host access (R42). -/
def perform (a : Access) (s : State) : Out State :=
  match a with
  | .write idx w => hostWrite idx w s
  | .read idx    => .next (hostRead idx s)

end Sys2Proof.Machine
end

