-- ==== Sys2Proof/Machine/Sequencer.lean ====
section
/-! DEFINITION. The sequencer between host accesses (spec/10_state.md R27, R42): going on with a running command, a
reset during a command (spec/70_reset_and_hazards.md R302), the next host input. -/

namespace Sys2Proof.Machine

/-- `T`, the bound chip description, for a command that is already running (R9). -/
def withBound (s : State) (k : ChipDesc → Out State) : Out State :=
  match s.blk.chip with
  | some T => k T
  | none   => .fault .chipUnbound

/-- Goes on from the phase the sequencer is in, in the order of R27, to the end of the command or of the verify
iteration. A run rests only at IDLE and at WR6a; the other phases are passed through within a step. -/
def resume (s : State) : Out State :=
  match s.blk.seq with
  | .idle    => .next s
  | .op1     => openFromOP1 s
  | .op2     => openFromOP2 s
  | .op3     => openFromOP3 s
  | .op4 sub => openResumeOP4 sub s
  | .cl1     => closeFromCL1 s
  | .sc1     => setchipFromSC1 s
  | .rd1     => withBound s fun T => readFromRD1 T s
  | .rd2     => withBound s fun T => readFromRD2 T s
  | .rd3 sub => withBound s fun T => readResumeRD3 T sub s
  | .rd4     => withBound s fun T => readFromRD4 T s
  | .rd5     => readFromRD5 s
  | .wr1     => withBound s fun T => writeFromWR1 T s
  | .wr2 sub => withBound s fun T => writeResumeWR2 T sub s
  | .wr3     => withBound s fun T => writeFromWR3 T s
  | .wr4     => withBound s fun T => writeFromWR4 T s
  | .wr5     => withBound s fun T => writeFromWR5 T s
  | .wr6a    => withBound s fun T => writeFromWR6a T s
  | .wr6b    => withBound s fun T => writeFromWR6b T s
  | .wr6c    => writeFromWR6c s
  | .wr6d    => writeFromWR6d s

/-- The events of `t` that `s` had not emitted yet. -/
def newEvents (s t : State) : List Event := t.trace.drop s.trace.length

/-- A reset asserted while a command runs (R302): `t` is where the command would be after this step from `s`. If the
pending `reset n` falls within the events of the step, the command is abandoned after `n` of them: no further event,
`S` at its reset values, the host access dropped. Otherwise it comes so many events nearer. -/
def cutByReset (s t : State) : State :=
  match s.host with
  | .reset n :: rest =>
    if n < (newEvents s t).length then
      resetBlock { replay ((newEvents s t).take n) s with host := rest }
    else { t with host := .reset (n - (newEvents s t).length) :: rest }
  | _ => t

/-- The next host input, taken only while the block is IDLE (R42). With no input the block waits (R273). -/
def acceptInput (s : State) : Out State :=
  match s.host with
  | [] => .next s
  | .reset _ :: rest => .next (resetBlock { s with host := rest })
  | .access a :: rest =>
    andThen (perform a { s with host := rest }) fun t => .next (cutByReset { s with host := rest } t)

/-- A running command goes on; the host stays stalled (R42, R312). -/
def continueCommand (s : State) : Out State := andThen (resume s) fun t => .next (cutByReset s t)

/-- The command word of a table row presented at the host port: the block idle and the write to CMD the next and only
host input, so that no reset cuts it. -/
def present (nbits w : Nat) (s : State) : State :=
  { s with
    host := [.access (.write (regIndex .cmd) (BitVec.ofNat 32 (tableWord nbits w)))]
    blk := { s.blk with seq := .idle } }

end Sys2Proof.Machine
end

