-- ==== Sys2Proof/Machine/Step.lean ====
section
/-! DEFINITION. One step of the machine (spec/10_state.md R27, R42): the next host input while the block is IDLE, the
rest of the running command otherwise. -/

namespace Sys2Proof.Machine

/-- One step. -/
def step (s : State) : Host.Outcome State Fault Refusal :=
  match s.blk.seq with
  | .idle => acceptInput s
  | _     => continueCommand s

/-- `s` with the instruction of a table row where `step` takes its next one: a pending host write to CMD (R31). -/
def State.withFetchWord (s : State) (nbits w : Nat) : State := present nbits w s

end Sys2Proof.Machine
end

