-- ==== Sys2Proof/Machine/Program.lean ====
section
/-! DEFINITION. The assembler lines of spec/30_encoding.md R97 and the pseudo-instructions of R98, as host inputs. -/

namespace Sys2Proof.Machine

/-- `WR name, value` (R97). -/
def wrInput (r : RegName) (v : Nat) : HostInput := .access (.write (regIndex r) (BitVec.ofNat 32 v))

/-- `RD name` (R97). -/
def rdInput (r : RegName) : HostInput := .access (.read (regIndex r))

/-- A command: a write of its word to CMD (R97). -/
def cmdInput (i : Instr) : HostInput := .access (.write (regIndex .cmd) (encode i))

/-- `WRITE a, v` (R98): `WR ADDR, a ; WRITE v ; RD RESULT`. -/
def writeAtInputs (a v : Nat) : List HostInput :=
  [wrInput .addr a, cmdInput (.write (BitVec.ofNat 8 v)), rdInput .result]

/-- The seven staging writes (R98). -/
def stageInputs (d : ChipDesc) : List HostInput :=
  [.capacity, .clock, .wc, .wp, .oe, .od, .acc].map fun f => wrInput (.chip f) (descGet d f).toNat

/-- The expansion of a line (R97, R98). -/
def expand : Line → List HostInput
  | .wr r v        => [wrInput r v]
  | .rd r          => [rdInput r]
  | .opn           => [cmdInput .openCmd]
  | .cls           => [cmdInput .closeCmd]
  | .setchip       => [cmdInput .setchip]
  | .read          => [cmdInput .read]
  | .write v       => [cmdInput (.write (BitVec.ofNat 8 v))]
  | .readAt a      => [wrInput .addr a, cmdInput .read, rdInput .result]
  | .writeAt a v   => writeAtInputs a v
  | .setchipWith d => stageInputs d ++ [cmdInput .setchip]
  | .erase n       => (List.range n).flatMap fun i => writeAtInputs i 0xFF

/-- A program: its lines' inputs in order. -/
def assemble (p : List Line) : List HostInput := p.flatMap expand

/-- The host about to run a program: its accesses are appended to the pending inputs. -/
def loadProgram (p : List Line) (s : State) : State := { s with host := s.host ++ assemble p }

end Sys2Proof.Machine
end

