-- ==== Sys2Proof/Safety.lean ====
section
/-! DEFINITION. The terms the claims use: the event lists the rules give for each procedure, counts and durations of a
trace (spec/00_scope.md R10, R12), the bus rule and the invariants of spec/10_state.md R45, spec/41_address_latch.md
R149, spec/20_memory.md R64. Nothing here is used by the machine. -/

namespace Sys2Proof

open Machine

namespace Trace

/-- The events of `Delay(d)` (R122). -/
def wait (d : Word) : List Event := if d = 0 then [] else [.delay d.toNat]

/-- The events of `SetPin(p, l, d)` (R120). -/
def setPin (p : Pin) (l : Level) (d : Word) : List Event := .pin p l :: wait d

/-- The events of `ShiftBit(b)` (R142). -/
def shiftBit (c : Cfg) (b : Level) : List Event :=
  .pin .dat b :: (setPin .clk true c.tShift ++ setPin .clk false c.tShift)

/-- The bits of a byte in the order they are sent: bit 7 first (R65, R143). -/
def msbFirst (x : Byte) : List Level := [7, 6, 5, 4, 3, 2, 1, 0].map fun i => x.getLsbD i

/-- The levels of a 16-bit address in the order they are sent: `a[15]` to `a[0]` (R65, R145). -/
def addressBits (a : Addr16) : List Level :=
  [15, 14, 13, 12, 11, 10, 9, 8, 7, 6, 5, 4, 3, 2, 1, 0].map fun i => a.getLsbD i

/-- The events of `LatchPulse()` (R144). -/
def latchPulse (c : Cfg) : List Event := setPin .lat true c.tLatch ++ setPin .lat false c.tLatch

/-- The events of `ShiftLatch(a)` (R145): sixteen bits, then one latch pulse. -/
def shiftLatch (c : Cfg) (a : Addr16) : List Event := (addressBits a).flatMap (shiftBit c) ++ latchPulse c

/-- Whether `SetAddress(a)` skips (R147). -/
def skip (c : Cfg) (cur a : Addr16) : Bool := (c.latchPolicy == .skipSame) && (a == cur)

/-- The events of `SetAddress(a)` with the cached address `cur` (R147). -/
def setAddress (c : Cfg) (cur a : Addr16) : List Event := if skip c cur a then [] else shiftLatch c a

/-- The events of OPEN (R231). -/
def openCmd (c : Cfg) : List Event :=
  [.dir .input, .pin .we true, .pin .oe true, .pin .lat false, .pin .clk false, .pin .dat false, .ctlEn] ++ shiftLatch c 0

/-- The events of READ before its sample (R181). -/
def readLead (c : Cfg) (T : ChipDesc) (cur a : Addr16) : List Event :=
  .dir .input :: (setPin .oe true T.od ++ setAddress c cur a ++ setPin .oe false T.oe)

/-- The events of WRITE before its verify loop (R201 to R205). -/
def writeLead (c : Cfg) (T : ChipDesc) (cur a : Addr16) (v : Byte) : List Event :=
  setPin .oe true T.od ++ setAddress c cur a ++ [.dir .output, .drv v] ++ setPin .we false T.wp ++ setPin .we true T.wc
    ++ [.dir .input]

/-- The events of one verify reading (R206). -/
def reading (T : ChipDesc) (x : Byte) : List Event := setPin .oe false T.oe ++ [.smp x] ++ setPin .oe true T.od

/-- The events of one verify iteration that read `x` and then `y` (R206, R207). -/
def iteration (c : Cfg) (T : ChipDesc) (x y : Byte) : List Event := reading T x ++ reading T y ++ wait c.tSettle

/-- The least time a list of events takes: the sum of its `D` events (R12, R331). -/
def duration : List Event → Nat
  | [] => 0
  | .delay n :: es => n + duration es
  | .pin _ _ :: es => duration es
  | .ctlEn :: es   => duration es
  | .dir _ :: es   => duration es
  | .drv _ :: es   => duration es
  | .smp _ :: es   => duration es

/-- Whether an event is a sample. -/
def isSample : Event → Bool
  | .smp _ => true
  | _      => false

/-- The number of samples (R183). -/
def samples (es : List Event) : Nat := es.countP isSample

/-- The number of writes of the level `l` to the pin `p` (R145, R204). -/
def writes (p : Pin) (l : Level) (es : List Event) : Nat := es.count (.pin p l)

/-- Whether an event is a `PIN` event. -/
def isPin : Event → Bool
  | .pin _ _ => true
  | _        => false

/-- The number of `PIN` events (R145). -/
def pins (es : List Event) : Nat := es.countP isPin

/-- The level an event writes to the shift data pin, if it does. -/
def datLevel : Event → Option Level
  | .pin .dat l => some l
  | _           => none

/-- The data levels of a list of events, in order (R65). -/
def datLevels (es : List Event) : List Level := es.filterMap datLevel

/-- The block does not drive the data bus while it enables the chip's outputs: `dir = OUT` implies `oe = 1` at the start
and after every event (R45, R316). -/
def busSafe (oe : Level) (d : Dir) : List Event → Bool
  | [] => (d == .input) || oe
  | .pin .oe l :: es => ((d == .input) || oe) && busSafe l d es
  | .dir d' :: es    => ((d == .input) || oe) && busSafe oe d' es
  | _ :: es          => ((d == .input) || oe) && busSafe oe d es

end Trace

/-- Block levels wherever a step begins (R45): the bus is input, WE high, latch and clock low; the sequencer is IDLE, or
rests in the verify loop of a WRITE with the session open, a chip bound and OE high. -/
structure AtRest (b : Block) : Prop where
  dir  : b.dir = .input
  we   : b.we = true
  lat  : b.lat = false
  clk  : b.clk = false
  seq  : b.seq = .idle ∨ (b.seq = .wr6a ∧ b.isOpen = true ∧ b.chip.isSome = true ∧ b.oe = true)

/-- While a session is open the pins are driven and the external latch holds the cached address (R46, R149). -/
structure Coherent (s : State) : Prop where
  driven : s.blk.isOpen = true → s.blk.driven = true
  latch  : s.blk.isOpen = true → s.env.latch = s.blk.curAddr

/-- A bound description has at least one byte (R64, R238). -/
def ChipUsable (b : Block) : Prop := ∀ T, b.chip = some T → T.capacity ≠ 0

/-- The chip array behind the bus, if there is one, is in canonical form. -/
def deviceWf : Device → Prop
  | .chip c   => c.mem.wf
  | .oracle   => True
  | .script _ => True
  | .keeper _ => True

/-- The invariant of the machine between steps. -/
structure Inv (s : State) : Prop where
  rest     : AtRest s.blk
  coherent : Coherent s
  usable   : ChipUsable s.blk
  memory   : deviceWf s.env.device

/-- What WR6d makes of the registers (R208, R209): success, a spent budget, or another iteration. -/
def afterTest (c : Cfg) (b : Block) : Block :=
  if b.r1 = b.r2 ∧ b.r1 = b.wval then { b with result := zext9 b.r1, code := .ok, seq := .idle }
  else if c.verifyPolicy = .unbounded then { b with seq := .wr6a }
  else if b.iter + 1 = c.retryCap then
    { b with iter := b.iter + 1, result := 0x100, code := .writeFailed, seq := .idle }
  else { b with iter := b.iter + 1, seq := .wr6a }

/-- The reset values of R44 (the temporaries, which it leaves unspecified, are left out). -/
def AtResetValues (b : Block) : Prop :=
  b.isOpen = false ∧ b.chip = none ∧ b.addrReg = 0 ∧ b.result = 0x000 ∧ b.code = .ok ∧
  b.stg = { capacity := 0, clock := 0, wc := 0, wp := 0, oe := 0, od := 0, acc := 0 } ∧
  b.curAddr = 0x0000 ∧ b.dir = .input ∧ b.clk = false ∧ b.dat = false ∧ b.lat = false ∧
  b.oe = true ∧ b.we = true ∧ b.driven = false ∧ b.dout = 0x00 ∧ b.seq = .idle

/-- `k` steps of the machine, ended by the first stop. -/
def runs : Nat → State → Out State
  | 0, s     => .next s
  | k + 1, s => andThen (step s) (runs k)

end Sys2Proof
end

