-- ==== Sys2Proof/Certificates/Slice0/Obligations.lean ====
section
/-! DEFINITION. The statements about the model. Event lists (`Trace.…`) and invariants are those of Safety.lean; a
`replay` of events is what the environment and the pin registers make of them. What a temporary (`aEff`, `wval`, `r1`,
`r2`, `iter`) holds once the sequencer is IDLE again, and that later commands keep it, is the model's choice wherever a
statement says it (R25, U6; notes/assumptions/8.md). That `exec` of a WRITE answers at the end of its first verify
iteration, and that a step from WR6a is one more, is the model's too (notes/assumptions/3.md). -/

open Sys2Proof Sys2Proof.Machine

/-! ## Encoding -/

/-- Words written out from the table of spec/30_encoding.md R92 and the vectors of spec/95_test_vectors.md 2.8. The names
of the rejections are the model's choice (notes/assumptions/20.md). -/
def Obligations.TableWordsDecode : Prop :=
  decode 0x00000001 = .ok .openCmd ∧ decode 0x00000002 = .ok .closeCmd ∧ decode 0x00000003 = .ok .setchip ∧
  decode 0x00000004 = .ok .read ∧ decode 0x0000A505 = .ok (.write 0xA5) ∧ decode 0x0000FF05 = .ok (.write 0xFF) ∧
  decode 0x00000000 = .error .opcode ∧ decode 0x00000006 = .error .opcode ∧ decode 0x00010001 = .error .reservedBits ∧
  decode 0x00000104 = .error .dataBits ∧ decode 0x80000005 = .error .reservedBits

/-- R92: a word selects a command exactly when it meets the command's mask and match; OPC 0x00 is no command. -/
def Obligations.OpcodeMapSelects : Prop :=
  (∀ w : Word,
    (w &&& 0xFFFFFFFF = 0x00000001 ↔ decode w = .ok .openCmd) ∧
    (w &&& 0xFFFFFFFF = 0x00000002 ↔ decode w = .ok .closeCmd) ∧
    (w &&& 0xFFFFFFFF = 0x00000003 ↔ decode w = .ok .setchip) ∧
    (w &&& 0xFFFFFFFF = 0x00000004 ↔ decode w = .ok .read) ∧
    (w &&& 0xFFFF00FF = 0x00000005 ↔ decode w = .ok (.write (w.extractLsb' 8 8)))) ∧
  (∀ w : Word, opcField w = 0 → ∃ e, decode w = .error e)

/-- R95's "injective on legal words", both ways: the decoder gives a command for exactly the command's own word. -/
def Obligations.DecodeIffEncode : Prop :=
  ∀ (w : Word) (i : Instr), decode w = .ok i ↔ encode i = w

/-- R94: the illegal words are those that match no row of the opcode map, they are those of its list, and writing one to
CMD changes CODE and RESULT and nothing else. -/
def Obligations.IllegalWordRaisesBadCmd : Prop :=
  (∀ w : Word, illegalWord w = true ↔ ∀ i : Instr, w &&& maskBits i ≠ matchBits i) ∧
  (∀ w : Word, illegalWord w = true ↔ ∃ e, decode w = .error e) ∧
  (∀ (w : Word) (s : State), illegalWord w = true → s.blk.seq = .idle →
    hostWrite 0x00 w s = .next { s with blk := { s.blk with code := .badCmd, result := 0x100 } }) ∧
  codeBits .badCmd = 4

/-! ## Pins, address latch, data bus -/

/-- R120: the register is written and the event emitted, redundant or not, then the wait; nothing else of the block
changes, and on an undriven pin nothing reaches the wire. -/
def Obligations.SetPinWritesThenWaits : Prop :=
  ∀ (p : Pin) (l : Level) (d : Word) (s : State),
    setPin p l d s =
      { s with
        blk := s.blk.writePin p l
        env := (replay (.pin p l :: Trace.wait d) s).env
        trace := s.trace ++ (.pin p l :: Trace.wait d) } ∧
    pinLevel (setPin p l d s).blk p = l ∧
    (∀ q, q ≠ p → pinLevel (setPin p l d s).blk q = pinLevel s.blk q) ∧
    (s.blk.driven = false → controlPin (setPin p l d s).blk p = none)

/-- R122: a wait of 0 emits nothing, any other one event `D(d)`; the reference time moves on by `d`. -/
def Obligations.DelayEmitsItsWait : Prop :=
  ∀ (d : Word) (s : State),
    delay d s = { s with env := (delay d s).env, trace := s.trace ++ (if d = 0 then [] else [.delay d.toNat]) } ∧
    (delay d s).env.now = s.env.now + d.toNat

/-- R145 (and the orders of R65): the events, their counts and least time, the registers, and the address the reference
latch holds afterwards. `outer` only names the phase it runs in. -/
def Obligations.ShiftLatchSendsAddress : Prop :=
  ∀ (outer : AddrPhase → Phase) (a : Addr16) (s : State),
    (shiftLatch outer a s).trace = s.trace ++ Trace.shiftLatch s.cfg a ∧
    Trace.datLevels (Trace.shiftLatch s.cfg a) = Trace.addressBits a ∧
    Trace.pins (Trace.shiftLatch s.cfg a) = 50 ∧
    Trace.writes .clk true (Trace.shiftLatch s.cfg a) = 16 ∧
    Trace.writes .clk false (Trace.shiftLatch s.cfg a) = 16 ∧
    Trace.writes .lat true (Trace.shiftLatch s.cfg a) = 1 ∧
    Trace.writes .lat false (Trace.shiftLatch s.cfg a) = 1 ∧
    (Trace.shiftLatch s.cfg a).length
      = 50 + (if s.cfg.tShift = 0 then 0 else 32) + (if s.cfg.tLatch = 0 then 0 else 2) ∧
    Trace.duration (Trace.shiftLatch s.cfg a) = 32 * s.cfg.tShift.toNat + 2 * s.cfg.tLatch.toNat ∧
    (shiftLatch outer a s).blk
      = { s.blk with clk := false, dat := a.getLsbD 0, lat := false, seq := outer .latch } ∧
    (s.blk.driven = true → s.blk.clk = false → s.blk.lat = false → (shiftLatch outer a s).env.latch = a)

/-- R147 and R146: under SKIP_SAME a repeated address emits nothing, otherwise the sequence of R145 runs; the cached
address is the requested one either way. -/
def Obligations.SetAddressSkipsOrLatches : Prop :=
  ∀ (outer : AddrPhase → Phase) (a : Addr16) (s : State),
    (setAddress outer a s).blk.curAddr = a ∧
    (s.cfg.latchPolicy = .skipSame → a = s.blk.curAddr →
      (setAddress outer a s).trace = s.trace ∧ (setAddress outer a s).env = s.env ∧
      (setAddress outer a s).blk = { s.blk with seq := outer .test }) ∧
    (s.cfg.latchPolicy = .always ∨ a ≠ s.blk.curAddr →
      (setAddress outer a s).trace = s.trace ++ Trace.shiftLatch s.cfg a ∧
      (setAddress outer a s).env = (shiftLatch outer a s).env ∧
      (setAddress outer a s).blk = { (shiftLatch outer a s).blk with curAddr := a })

/-- The idempotence property of spec/41_address_latch.md section "Idempotence" (the spec's inference from R147). -/
def Obligations.SetAddressTwice : Prop :=
  ∀ (outer : AddrPhase → Phase) (a : Addr16) (s : State),
    let t := setAddress outer a s
    let u := setAddress outer a t
    t.blk.curAddr = a ∧ u.blk.curAddr = a ∧
    (s.cfg.latchPolicy = .skipSame → u.trace = t.trace) ∧
    (s.cfg.latchPolicy = .always →
      ∃ es, u.trace = t.trace ++ es ∧ Trace.writes .lat true es = 1 ∧ Trace.writes .clk true es = 16)

/-- R161, R162, R164, R165: the events of the Data Bus Driver, that `WriteByte` leaves the direction alone, and that what it
stores in input direction reaches the lines with the next switch to output. -/
def Obligations.DataBusDriverWrites : Prop :=
  ∀ (v : Byte) (s : State),
    setDirectionInput s =
      { s with blk := { s.blk with dir := .input }, env := (emit (.dir .input) s).env, trace := s.trace ++ [.dir .input] } ∧
    setDirectionOutput s =
      { s with blk := { s.blk with dir := .output }, env := (emit (.dir .output) s).env, trace := s.trace ++ [.dir .output] } ∧
    writeByte v s =
      { s with blk := { s.blk with dout := v }, env := (emit (.drv v) s).env, trace := s.trace ++ [.drv v] } ∧
    (writeByte v s).blk.dir = s.blk.dir ∧
    (∀ n, dataLine (setDirectionInput s).blk n = none) ∧
    (∀ n, dataLine (setDirectionOutput s).blk n = some (s.blk.dout.getLsbD n.val)) ∧
    (s.blk.dir = .output → ∀ n, dataLine (writeByte v s).blk n = some (v.getLsbD n.val)) ∧
    (s.blk.dir = .input → ∀ n, dataLine (writeByte v s).blk n = none ∧
      dataLine (setDirectionOutput (writeByte v s)).blk n = some (v.getLsbD n.val))

/-- R163: in input direction one sample, bit `n` from line `n`, no register written; in output direction refused. -/
def Obligations.ReadByteSamplesInput : Prop :=
  ∀ s : State,
    (s.blk.dir = .input →
      ∃ v, readByte s = .next (v, { s with env := (emit (.smp v) s).env, trace := s.trace ++ [.smp v] }) ∧
        v = sample s ∧ ∀ n : Fin 8, v.getLsbD n.val = getPin (sample s) n) ∧
    (s.blk.dir = .output → readByte s = .refused .readByteWhileOutput)

/-- The round-trip property of spec/42_data_bus.md (the spec's inference from R161 to R164), on a bus keeper, whose
behaviour at a switch to output is the model's choice (notes/assumptions/17.md). -/
def Obligations.BusKeeperRoundTrip : Prop :=
  ∀ (v w : Byte) (s : State), s.env.device = .keeper w →
    ∃ t, readByte (setDirectionInput (writeByte v (setDirectionOutput s))) = .next (v, t) ∧
      t.trace = s.trace ++ [.dir .output, .drv v, .dir .input, .smp v] ∧ t.blk.dir = .input ∧ t.blk.dout = v

/-- R64: the reduction, its range, the readings the rule gives for powers of two, large capacities and aliases; READ and
WRITE compute it from ADDR and the bound capacity and keep it. -/
def Obligations.AddressReduction : Prop :=
  (∀ addr cap : Word, cap ≠ 0 → (reduce addr cap).toNat = addr.toNat % min cap.toNat 65536) ∧
  (∀ addr cap : Word, cap ≠ 0 → (reduce addr cap).toNat < min cap.toNat 65536) ∧
  (∀ (addr cap : Word) (k : Nat), k ≤ 16 → cap.toNat = 2 ^ k → reduce addr cap = (addr &&& (cap - 1)).setWidth 16) ∧
  (∀ addr cap : Word, 65536 ≤ cap.toNat → reduce addr cap = addr.setWidth 16) ∧
  (∀ (a b cap : Word) (k : Nat), a.toNat = b.toNat + k * min cap.toNat 65536 → reduce a cap = reduce b cap) ∧
  (∀ (s : State) (T : ChipDesc), Inv s → s.blk.isOpen = true → s.blk.chip = some T →
    1 ≤ T.capacity.toNat ∧
    (∃ t, exec .read s = .next t ∧ t.blk.aEff = reduce s.blk.addrReg T.capacity) ∧
    (∀ v, ∃ t, exec (.write v) s = .next t ∧ t.blk.aEff = reduce s.blk.addrReg T.capacity))

/-! ## READ -/

/-- R181: in a session with a chip bound READ completes; every register, the events and the sampled byte are as the
cycle gives them, and nothing else changes. -/
def Obligations.ReadRunsItsCycle : Prop :=
  ∀ (s : State) (T : ChipDesc), s.blk.isOpen = true → s.blk.chip = some T →
    let a := reduce s.blk.addrReg T.capacity
    let skip := Trace.skip s.cfg s.blk.curAddr a
    let lead := Trace.readLead s.cfg T s.blk.curAddr a
    let v := sample (replay lead s)
    exec .read s = .next
      { s with
        blk := { s.blk with
          aEff := a, dir := .input, oe := false, curAddr := a
          clk := if skip then s.blk.clk else false
          dat := if skip then s.blk.dat else a.getLsbD 0
          lat := if skip then s.blk.lat else false
          result := zext9 v, code := .ok, seq := .idle }
        env := (replay (lead ++ [.smp v]) s).env
        trace := s.trace ++ (lead ++ [.smp v]) }

/-- R183: exactly one sample, the last event, and its byte is the result whatever it is. -/
def Obligations.ReadSamplesOnce : Prop :=
  ∀ (s : State) (T : ChipDesc), s.blk.isOpen = true → s.blk.chip = some T →
    ∃ t es v, exec .read s = .next t ∧ t.trace = s.trace ++ (es ++ [.smp v]) ∧ Trace.samples es = 0 ∧
      t.blk.result = zext9 v ∧ t.blk.code = .ok

/-- The least duration of READ (spec/43_read_cycle.md, the spec's inference), on the reference clock. -/
def Obligations.ReadMinimumDuration : Prop :=
  ∀ (s : State) (T : ChipDesc), s.blk.isOpen = true → s.blk.chip = some T →
    ∃ t, exec .read s = .next t ∧
      t.env.now = s.env.now + T.od.toNat + T.oe.toNat
        + (if Trace.skip s.cfg s.blk.curAddr (reduce s.blk.addrReg T.capacity) then 0
           else 32 * s.cfg.tShift.toNat + 2 * s.cfg.tLatch.toNat)

/-- R182 (and what R149 adds to it): the sample comes right after OE falls and is held, and the external latch holds the
reduced address before OE falls and still at the sample. -/
def Obligations.ReadSamplesAStableAddress : Prop :=
  ∀ (s : State) (T : ChipDesc), Inv s → s.blk.isOpen = true → s.blk.chip = some T →
    let a := reduce s.blk.addrReg T.capacity
    let pre := .dir .input :: (Trace.setPin .oe true T.od ++ Trace.setAddress s.cfg s.blk.curAddr a)
    ∃ t v, exec .read s = .next t ∧
      t.trace = s.trace ++ (pre ++ (.pin .oe false :: (Trace.wait T.oe ++ [.smp v]))) ∧
      t.blk.result = zext9 v ∧ (replay pre s).env.latch = a ∧ t.env.latch = a

/-- READ against a reference chip with no write under way (spec/20_memory.md, the reference models): the result is the byte
the chip holds at the reduced address, under both latch policies. That the chip indexes by a capacity of its own is the
model's choice (notes/assumptions/9.md). -/
def Obligations.ReadReturnsChipByte : Prop :=
  ∀ (s : State) (T : ChipDesc) (c : RefChip), Inv s → s.blk.isOpen = true → s.blk.chip = some T →
    s.env.device = .chip c → c.shadows = [] →
    ∃ t, exec .read s = .next t ∧ t.blk.code = .ok ∧
      t.blk.result = zext9 (c.mem.read (c.index (reduce s.blk.addrReg T.capacity)))

/-- The scenario of spec/70_reset_and_hazards.md R304: OPEN in any state, then READ of address 0, gives the byte the chip
holds at address 0, under both latch policies. -/
def Obligations.ReadAfterOpenReturnsByteZero : Prop :=
  ∀ (s : State) (T : ChipDesc) (c : RefChip), s.blk.chip = some T → s.blk.addrReg = 0 →
    s.env.device = .chip c → c.shadows = [] →
    ∃ t u, exec .openCmd s = .next t ∧ exec .read t = .next u ∧ u.blk.code = .ok ∧
      u.blk.result = zext9 (c.mem.read 0)

/-- The frame of READ: what it leaves alone whenever it answers a next state, every byte of the chip included. That `wval`,
`r1`, `r2` and `iter` keep their values is the model's choice (notes/assumptions/8.md). -/
def Obligations.ReadFrame : Prop :=
  ∀ s t : State, exec .read s = .next t →
    t.cfg = s.cfg ∧ t.host = s.host ∧ t.replies = s.replies ∧
    t.blk.isOpen = s.blk.isOpen ∧ t.blk.chip = s.blk.chip ∧ t.blk.stg = s.blk.stg ∧ t.blk.addrReg = s.blk.addrReg ∧
    t.blk.we = s.blk.we ∧ t.blk.driven = s.blk.driven ∧ t.blk.dout = s.blk.dout ∧
    t.blk.wval = s.blk.wval ∧ t.blk.r1 = s.blk.r1 ∧ t.blk.r2 = s.blk.r2 ∧ t.blk.iter = s.blk.iter ∧
    (∀ c, s.env.device = .chip c →
      ∃ c', t.env.device = .chip c' ∧ c'.kind = c.kind ∧ c'.capacity = c.capacity ∧ ∀ k, c'.mem.read k = c.mem.read k)

/-! ## WRITE -/

/-- R210 to the end of the first verify iteration (R201 to R209): in a session with a chip bound WRITE answers a next
state whose registers and events are those of the cycle, for whatever two bytes the environment answers. That `exec`
answers there, resting at WR6a where the loop goes on, is the model's choice (notes/assumptions/3.md). -/
def Obligations.WriteRunsItsCycle : Prop :=
  ∀ (v : Byte) (s : State) (T : ChipDesc), s.blk.isOpen = true → s.blk.chip = some T →
    let a := reduce s.blk.addrReg T.capacity
    let skip := Trace.skip s.cfg s.blk.curAddr a
    let lead := Trace.writeLead s.cfg T s.blk.curAddr a v
    let x := sample (replay (lead ++ Trace.setPin .oe false T.oe) s)
    let y := sample (replay (lead ++ Trace.reading T x ++ Trace.setPin .oe false T.oe) s)
    exec (.write v) s = .next
      { s with
        blk := afterTest s.cfg { s.blk with
          aEff := a, wval := v, dir := .input, oe := true, we := true, dout := v, curAddr := a
          clk := if skip then s.blk.clk else false
          dat := if skip then s.blk.dat else a.getLsbD 0
          lat := if skip then s.blk.lat else false
          r1 := x, r2 := y, iter := 0 }
        env := (replay (lead ++ Trace.iteration s.cfg T x y) s).env
        trace := s.trace ++ (lead ++ Trace.iteration s.cfg T x y) }

/-- R211's success: where the environment answers the byte to both readings, WRITE completes with it, in the one
iteration that `exec` of a WRITE runs (notes/assumptions/3.md). -/
def Obligations.WriteSucceedsWhenReadBack : Prop :=
  ∀ (v : Byte) (rest : List Byte) (s : State) (T : ChipDesc),
    s.blk.isOpen = true → s.blk.chip = some T → s.env.device = .script (v :: v :: rest) →
    ∃ t, exec (.write v) s = .next t ∧ t.blk.seq = .idle ∧ t.blk.result = zext9 v ∧ t.blk.code = .ok ∧
      t.env.device = .script rest ∧ t.blk.dir = .input ∧ t.blk.oe = true ∧ t.blk.we = true ∧ t.blk.dout = v ∧
      t.blk.curAddr = reduce s.blk.addrReg T.capacity

/-- R206 to R208 (with R209's choice): each further step of a running verify loop is one iteration. That a step is an
iteration is the model's choice (notes/assumptions/3.md). -/
def Obligations.VerifyIterationRuns : Prop :=
  ∀ (s : State) (T : ChipDesc), s.blk.seq = .wr6a → s.blk.chip = some T → s.blk.dir = .input →
    (∀ n rest, s.host ≠ .reset n :: rest) →
    let x := sample (replay (Trace.setPin .oe false T.oe) s)
    let y := sample (replay (Trace.reading T x ++ Trace.setPin .oe false T.oe) s)
    step s = .next
      { s with
        blk := afterTest s.cfg { s.blk with oe := true, r1 := x, r2 := y }
        env := (replay (Trace.iteration s.cfg T x y) s).env
        trace := s.trace ++ Trace.iteration s.cfg T x y }

/-- The least duration of WRITE (spec/44_write_verify_cycle.md, the spec's inference), on the reference clock: the first
part with one iteration, and what every further iteration adds. That `exec` and a step from WR6a run one iteration each is
the model's choice (notes/assumptions/3.md). -/
def Obligations.WriteMinimumDuration : Prop :=
  (∀ (v : Byte) (s : State) (T : ChipDesc), s.blk.isOpen = true → s.blk.chip = some T →
    ∃ t, exec (.write v) s = .next t ∧
      t.env.now = s.env.now + T.od.toNat
        + (if Trace.skip s.cfg s.blk.curAddr (reduce s.blk.addrReg T.capacity) then 0
           else 32 * s.cfg.tShift.toNat + 2 * s.cfg.tLatch.toNat)
        + T.wp.toNat + T.wc.toNat + (2 * (T.oe.toNat + T.od.toNat) + s.cfg.tSettle.toNat)) ∧
  (∀ (s : State) (T : ChipDesc), s.blk.seq = .wr6a → s.blk.chip = some T → s.blk.dir = .input →
    (∀ n rest, s.host ≠ .reset n :: rest) →
    ∃ t, step s = .next t ∧
      t.env.now = s.env.now + (2 * (T.oe.toNat + T.od.toNat) + s.cfg.tSettle.toNat))

/-- Under BOUNDED every WRITE ends, within RETRY_CAP iterations, with the byte or with the sentinel (R209, R211, R312),
and the host's next input is still to come. That a step is an iteration is the model's choice (notes/assumptions/3.md). -/
def Obligations.BoundedWriteEnds : Prop :=
  ∀ (v : Byte) (s : State) (T : ChipDesc), s.blk.isOpen = true → s.blk.chip = some T →
    s.cfg.verifyPolicy = .bounded → 1 ≤ s.cfg.retryCap.toNat → (∀ n rest, s.host ≠ .reset n :: rest) →
    ∃ t k u, exec (.write v) s = .next t ∧ k < s.cfg.retryCap.toNat ∧ runs k t = .next u ∧ u.blk.seq = .idle ∧
      u.host = s.host ∧ u.blk.dir = .input ∧ u.blk.oe = true ∧ u.blk.we = true ∧ u.blk.dout = v ∧
      ((u.blk.result = zext9 v ∧ u.blk.code = .ok) ∨ (u.blk.result = 0x100 ∧ u.blk.code = .writeFailed))

/-- R312 with the chip NEVER of R73: under UNBOUNDED, against a chip that never takes the byte, a WRITE goes into the
verify loop and stays there however many steps are taken; no host input is taken and nothing is read. The first half says
the same of a loop that is already running, and that no result appears. The run that never ends as steps that never
leave WR6a (notes/assumptions/3.md) and the chip's own capacity (notes/assumptions/9.md) are the model's choice. -/
def Obligations.UnboundedWriteHangs : Prop :=
  (∀ (s : State) (c : RefChip), s.cfg.verifyPolicy = .unbounded → s.blk.seq = .wr6a → s.blk.chip.isSome = true →
    s.blk.dir = .input → s.blk.driven = true → (∀ n rest, s.host ≠ .reset n :: rest) →
    s.env.device = .chip c → c.kind = .never → c.shadows = [] → c.mem.read (c.index s.env.latch) ≠ s.blk.wval →
    ∀ k, ∃ u, runs k s = .next u ∧ u.blk.seq = .wr6a ∧ u.host = s.host ∧ u.replies = s.replies ∧
      u.blk.result = s.blk.result ∧ u.blk.code = s.blk.code) ∧
  (∀ (v : Byte) (s : State) (T : ChipDesc) (c : RefChip), Inv s → s.blk.seq = .idle → s.blk.isOpen = true →
    s.blk.chip = some T → s.env.device = .chip c → c.kind = .never → c.shadows = [] →
    c.mem.read (c.index (reduce s.blk.addrReg T.capacity)) ≠ v →
    s.cfg.verifyPolicy = .unbounded → (∀ n rest, s.host ≠ .reset n :: rest) →
    ∃ t, exec (.write v) s = .next t ∧
      ∀ k, ∃ u, runs k t = .next u ∧ u.blk.seq = .wr6a ∧ u.host = s.host ∧ u.replies = s.replies)

/-- The success property of spec/44_write_verify_cycle.md, R215 (a) (the spec's inference): against IDEAL and DELAYED
the first iteration reads the byte back, under both policies, and exactly the addressed byte of the chip changes. The
chip's own capacity is taken equal to the bound one (notes/assumptions/9.md). DELAYED runs on the reference timing, so
"every timing" here is every `T` on that clock (notes/assumptions/10.md). That `exec` runs the first iteration to its end
is the model's choice (notes/assumptions/3.md). -/
def Obligations.WriteStoresInReferenceChip : Prop :=
  ∀ (v : Byte) (s : State) (T : ChipDesc) (c : RefChip), Inv s → s.blk.seq = .idle → s.blk.isOpen = true →
    s.blk.chip = some T → s.env.device = .chip c → (c.kind = .ideal ∨ c.kind = .delayed) →
    c.capacity = T.capacity.toNat → (c.kind = .ideal → c.shadows = []) →
    ∃ t c', exec (.write v) s = .next t ∧ t.blk.seq = .idle ∧ t.blk.result = zext9 v ∧ t.blk.code = .ok ∧
      t.env.device = .chip c' ∧
      c'.mem.read (reduce s.blk.addrReg T.capacity).toNat = v ∧
      c'.output t.env.now (reduce s.blk.addrReg T.capacity) = v ∧
      ∀ k, k ≠ (reduce s.blk.addrReg T.capacity).toNat → c'.mem.read k = c.mem.read k

/-- The failure property of the same rule, (b): against NEVER, under BOUNDED, exactly RETRY_CAP iterations run, two
samples each, and WRITE reports the sentinel. That a step is an iteration (notes/assumptions/3.md) and that the chip has a
capacity of its own (notes/assumptions/9.md) are the model's choice. -/
def Obligations.WriteFailsAgainstNever : Prop :=
  ∀ (v : Byte) (s : State) (T : ChipDesc) (c : RefChip), Inv s → s.blk.seq = .idle → s.blk.isOpen = true →
    s.blk.chip = some T → s.env.device = .chip c → c.kind = .never → c.shadows = [] →
    c.mem.read (c.index (reduce s.blk.addrReg T.capacity)) ≠ v →
    s.cfg.verifyPolicy = .bounded → 1 ≤ s.cfg.retryCap.toNat → (∀ n rest, s.host ≠ .reset n :: rest) →
    ∃ t u, exec (.write v) s = .next t ∧ runs (s.cfg.retryCap.toNat - 1) t = .next u ∧ u.blk.seq = .idle ∧
      u.blk.result = 0x100 ∧ u.blk.code = .writeFailed ∧ u.env.samples = s.env.samples + 2 * s.cfg.retryCap.toNat

/-- The frame of WRITE, and where it stores: with a chip array behind the bus every byte is unchanged but the one the
chip selects for the reduced address, and all of them where the command is refused. The premise is the invariant that
every step keeps. -/
def Obligations.WriteFrame : Prop :=
  ∀ (v : Byte) (s t : State), Inv s → exec (.write v) s = .next t →
    t.cfg = s.cfg ∧ t.host = s.host ∧ t.replies = s.replies ∧
    t.blk.isOpen = s.blk.isOpen ∧ t.blk.chip = s.blk.chip ∧ t.blk.stg = s.blk.stg ∧ t.blk.addrReg = s.blk.addrReg ∧
    t.blk.driven = s.blk.driven ∧
    (∀ c, s.env.device = .chip c → ∃ c', t.env.device = .chip c' ∧ c'.kind = c.kind ∧ c'.capacity = c.capacity ∧
      ((s.blk.isOpen = false ∨ s.blk.chip = none) → ∀ k, c'.mem.read k = c.mem.read k) ∧
      (∀ T, s.blk.isOpen = true → s.blk.chip = some T →
        ∀ k, k ≠ c.index (reduce s.blk.addrReg T.capacity) → c'.mem.read k = c.mem.read k))

/-- A further verify iteration stores nothing: no byte of a reference chip changes, cut by a reset or not. That a step is
an iteration (notes/assumptions/3.md) and that a cut leaves the chip alone (notes/assumptions/22.md) are the model's
choice. -/
def Obligations.VerifyIterationStoresNothing : Prop :=
  ∀ (s t : State) (c : RefChip), s.blk.seq = .wr6a → step s = .next t → s.env.device = .chip c →
    ∃ c', t.env.device = .chip c' ∧ c'.kind = c.kind ∧ c'.capacity = c.capacity ∧ ∀ k, c'.mem.read k = c.mem.read k

/-- R204 over all commands: a WRITE that passes its pre-checks pulses WE once, in its first step; no other command and
no verify iteration pulses it. Which step the pulse falls in is the model's choice (notes/assumptions/3.md). -/
def Obligations.OneWritePulsePerWrite : Prop :=
  (∀ (i : Instr) (s t : State), exec i s = .next t →
    ∃ es, t.trace = s.trace ++ es ∧
      Trace.writes .we false es
        = (match i with
           | .write _ => if s.blk.isOpen = true ∧ s.blk.chip.isSome = true then 1 else 0
           | .openCmd => 0 | .closeCmd => 0 | .setchip => 0 | .read => 0)) ∧
  (∀ s t : State, s.blk.seq = .wr6a → step s = .next t →
    ∃ es, t.trace = s.trace ++ es ∧ Trace.writes .we false es = 0)

/-! ## OPEN, CLOSE, SETCHIP -/

/-- R230 and R231: OPEN is accepted in every state and always ends so. -/
def Obligations.OpenInitialises : Prop :=
  (encode .openCmd = 0x00000001) ∧
  (∀ c : Cfg, Trace.duration (Trace.openCmd c) = 32 * c.tShift.toNat + 2 * c.tLatch.toNat) ∧
  ∀ s : State,
    exec .openCmd s = .next
      { s with
        blk := { s.blk with
          dir := .input, we := true, oe := true, lat := false, clk := false, dat := false, driven := true
          curAddr := 0, isOpen := true, result := 0x001, code := .ok, seq := .idle }
        env := (replay (Trace.openCmd s.cfg) s).env
        trace := s.trace ++ Trace.openCmd s.cfg }

/-- R232: a second OPEN emits the same events and ends in the same state; the external latch holds 0 after each. -/
def Obligations.OpenTwiceSameEnd : Prop :=
  ∀ s : State, ∃ t u, exec .openCmd s = .next t ∧ exec .openCmd t = .next u ∧
    u.blk = t.blk ∧ t.env.latch = 0 ∧ u.env.latch = 0 ∧
    u.trace = t.trace ++ Trace.openCmd s.cfg ∧ t.trace = s.trace ++ Trace.openCmd s.cfg ∧
    t.blk.dir = .input ∧ t.blk.oe = true ∧ t.blk.we = true ∧ t.blk.lat = false ∧ t.blk.clk = false ∧
    t.blk.dat = false ∧ t.blk.driven = true ∧ t.blk.curAddr = 0 ∧ t.blk.isOpen = true

/-- R233 and R234: CLOSE in every state, and again. -/
def Obligations.CloseReleasesBus : Prop :=
  (encode .closeCmd = 0x00000002) ∧
  ∀ s : State,
    exec .closeCmd s = .next
      { s with
        blk := { s.blk with dir := .input, isOpen := false, result := 0x000, code := .ok, seq := .idle }
        env := (replay [.dir .input] s).env
        trace := s.trace ++ [.dir .input] }

/-- R236 to R238: SETCHIP binds the staged description as a whole, whether or not a session is open, or refuses a
capacity of 0 and keeps the old binding. No other field value is refused. -/
def Obligations.SetchipBindsOrRefuses : Prop :=
  (encode .setchip = 0x00000003) ∧
  ∀ s : State,
    (s.blk.stg.capacity ≠ 0 →
      exec .setchip s = .next
        { s with blk := { s.blk with chip := some s.blk.stg, result := 0x000, code := .ok, seq := .idle } }) ∧
    (s.blk.stg.capacity = 0 →
      exec .setchip s = .next
        { s with blk := { s.blk with result := 0x100, code := .badChip, seq := .idle } }) ∧
    codeBits .badChip = 5

/-- The frame of the three session commands; each register that one of them writes is named. No byte of the chip
changes. That the temporaries keep their values is the model's choice (notes/assumptions/8.md). -/
def Obligations.SessionCommandsFrame : Prop :=
  ∀ (i : Instr) (s t : State), (i = .openCmd ∨ i = .closeCmd ∨ i = .setchip) → exec i s = .next t →
    t.cfg = s.cfg ∧ t.host = s.host ∧ t.replies = s.replies ∧
    t.blk.stg = s.blk.stg ∧ t.blk.addrReg = s.blk.addrReg ∧ t.blk.dout = s.blk.dout ∧
    t.blk.aEff = s.blk.aEff ∧ t.blk.wval = s.blk.wval ∧ t.blk.r1 = s.blk.r1 ∧ t.blk.r2 = s.blk.r2 ∧
    t.blk.iter = s.blk.iter ∧
    (i ≠ .setchip → t.blk.chip = s.blk.chip) ∧
    (i ≠ .openCmd →
      t.blk.clk = s.blk.clk ∧ t.blk.dat = s.blk.dat ∧ t.blk.lat = s.blk.lat ∧ t.blk.oe = s.blk.oe ∧
      t.blk.we = s.blk.we ∧ t.blk.driven = s.blk.driven ∧ t.blk.curAddr = s.blk.curAddr) ∧
    (i = .setchip → t.blk.isOpen = s.blk.isOpen ∧ t.blk.dir = s.blk.dir ∧ t.trace = s.trace ∧ t.env = s.env) ∧
    (∀ c, s.env.device = .chip c →
      ∃ c', t.env.device = .chip c' ∧ c'.kind = c.kind ∧ c'.capacity = c.capacity ∧ ∀ k, c'.mem.read k = c.mem.read k)

/-! ## Errors and modes -/

/-- R262: each pre-check error, wherever it is raised, leaves the state as it was but for CODE and RESULT, and no event
is emitted. -/
def Obligations.PreCheckErrorsArePrecise : Prop :=
  ∀ (s : State), s.blk.seq = .idle →
    let refused (e : Code) : Out State := .next { s with blk := { s.blk with code := e, result := 0x100 } }
    (∀ v, s.blk.isOpen = false → exec .read s = refused .notOpen ∧ exec (.write v) s = refused .notOpen) ∧
    (∀ v, s.blk.isOpen = true → s.blk.chip = none →
      exec .read s = refused .noChip ∧ exec (.write v) s = refused .noChip) ∧
    (s.blk.stg.capacity = 0 → exec .setchip s = refused .badChip) ∧
    (∀ w e, decode w = .error e → hostWrite 0x00 w s = refused .badCmd)

/-- R268: what each command does in the four modes, and the transitions between them. -/
def Obligations.LifecycleModes : Prop :=
  ∀ (i : Instr) (s t : State), exec i s = .next t →
    (t.blk.isOpen = (match i with
      | .openCmd => true | .closeCmd => false | .setchip => s.blk.isOpen | .read => s.blk.isOpen
      | .write _ => s.blk.isOpen)) ∧
    (t.blk.chip = (match i with
      | .setchip => if s.blk.stg.capacity = 0 then s.blk.chip else some s.blk.stg
      | .openCmd => s.blk.chip | .closeCmd => s.blk.chip | .read => s.blk.chip | .write _ => s.blk.chip)) ∧
    ((i = .read ∨ ∃ v, i = .write v) →
      (s.blk.isOpen = false → t.blk.code = .notOpen) ∧
      (s.blk.isOpen = true → s.blk.chip = none → t.blk.code = .noChip) ∧
      (s.blk.isOpen = true → s.blk.chip.isSome = true →
        t.blk.code = .ok ∨ t.blk.code = .writeFailed ∨ t.blk.seq = .wr6a) ∧
      (s.blk.isOpen = true → s.blk.chip.isSome = true → t.trace ≠ s.trace)) ∧
    ((i = .openCmd ∨ i = .closeCmd) → t.blk.code = .ok)

/-- No command faults or is refused by the model, in any state: `ReadByte` is never reached in output direction (R163). -/
def Obligations.EveryCommandAnswers : Prop :=
  ∀ (i : Instr) (s : State), ∃ t, exec i s = .next t

/-- The sentinel marks failure and nothing else (R33, R324): once a command is over, bit 8 of RESULT is set exactly when
CODE is not OK. -/
def Obligations.SentinelMarksFailure : Prop :=
  ∀ (i : Instr) (s t : State), exec i s = .next t → t.blk.seq = .idle →
    (t.blk.result.getLsbD 8 = true ↔ t.blk.code ≠ .ok) ∧ (t.blk.code ≠ .ok → t.blk.result = 0x100)

/-- Only OPEN switches the control-pin drivers on, and no command switches them off (R23). -/
def Obligations.OnlyOpenDrivesPins : Prop :=
  ∀ (i : Instr) (s t : State), exec i s = .next t →
    t.blk.driven = (match i with
      | .openCmd => true
      | .closeCmd => s.blk.driven | .setchip => s.blk.driven | .read => s.blk.driven | .write _ => s.blk.driven)

/-- R240: two bound descriptions that differ only in `clock` and `acc` give the same READ and the same
WRITE: same events, same registers but the binding itself. Both runs start at the same sample counter, so under the
unconstrained oracle they are answered the same free bytes, which is the model's choice (notes/assumptions/6.md). -/
def Obligations.ClockAndAccUnused : Prop :=
  ∀ (s : State) (T : ChipDesc) (clock acc : Word) (i : Instr), (i = .read ∨ ∃ v, i = .write v) →
    let T' := { T with clock := clock, acc := acc }
    ∀ t, exec i { s with blk := { s.blk with chip := some T } } = .next t →
      exec i { s with blk := { s.blk with chip := some T' } } = .next { t with blk := { t.blk with chip := some T' } }

/-! ## The host register port -/

/-- R31, R35, R38, R40, R41: what the registers without fields read as; a read changes nothing but the host's replies. -/
def Obligations.RegisterReads : Prop :=
  (∀ (idx : BitVec 5) (s : State), perform (.read idx) s = .next { s with replies := s.replies ++ [readReg s idx] }) ∧
  ∀ s : State,
    readReg s 0x00 = 0 ∧ readReg s 0x01 = s.blk.addrReg ∧ readReg s 0x04 = s.blk.curAddr.setWidth 32 ∧
    readReg s 0x07 = s.cfg.retryCap ∧ readReg s 0x17 = s.cfg.tLatch ∧ readReg s 0x18 = s.cfg.tShift ∧
    readReg s 0x19 = s.cfg.tSettle ∧
    readReg s 0x08 = s.blk.stg.capacity ∧ readReg s 0x09 = s.blk.stg.clock ∧ readReg s 0x0A = s.blk.stg.wc ∧
    readReg s 0x0B = s.blk.stg.wp ∧ readReg s 0x0C = s.blk.stg.oe ∧ readReg s 0x0D = s.blk.stg.od ∧
    readReg s 0x0E = s.blk.stg.acc ∧
    (∀ T, s.blk.chip = some T →
      readReg s 0x10 = T.capacity ∧ readReg s 0x11 = T.clock ∧ readReg s 0x12 = T.wc ∧ readReg s 0x13 = T.wp ∧
      readReg s 0x14 = T.oe ∧ readReg s 0x15 = T.od ∧ readReg s 0x16 = T.acc) ∧
    (s.blk.chip = none → ∀ idx : BitVec 5, 0x10 ≤ idx → idx ≤ 0x16 → readReg s idx = 0) ∧
    readReg s 0x0F = 0 ∧ (∀ idx : BitVec 5, 0x1A ≤ idx → readReg s idx = 0)

/-- R33, R34, R36, R37: the registers with fields, bit by bit, the numbers of the codes in STATUS (R34, R260), and what the
first three read as after reset. -/
def Obligations.FieldRegisterReads : Prop :=
  ∀ s : State,
    (∀ n, n < 9 → (readReg s 0x02).getLsbD n = s.blk.result.getLsbD n) ∧
    (∀ n, 9 ≤ n → (readReg s 0x02).getLsbD n = false) ∧
    (∀ n, n < 4 → (readReg s 0x03).getLsbD n = (codeBits s.blk.code).getLsbD n) ∧
    (readReg s 0x03).extractLsb' 0 4 = (match s.blk.code with
      | .ok => 0 | .noChip => 1 | .writeFailed => 2 | .notOpen => 3 | .badCmd => 4 | .badChip => 5) ∧
    (readReg s 0x03).getLsbD 4 = s.blk.isOpen ∧ (readReg s 0x03).getLsbD 5 = s.blk.chip.isSome ∧
    (∀ n, 6 ≤ n → (readReg s 0x03).getLsbD n = false) ∧
    (readReg s 0x05).getLsbD 0 = s.blk.clk ∧ (readReg s 0x05).getLsbD 1 = s.blk.dat ∧
    (readReg s 0x05).getLsbD 2 = s.blk.lat ∧ (readReg s 0x05).getLsbD 3 = s.blk.oe ∧
    (readReg s 0x05).getLsbD 4 = s.blk.we ∧ (readReg s 0x05).getLsbD 5 = decide (s.blk.dir = .output) ∧
    (readReg s 0x05).getLsbD 6 = s.blk.driven ∧ (readReg s 0x05).getLsbD 7 = false ∧
    (∀ n, n < 8 → (readReg s 0x05).getLsbD (8 + n) = s.blk.dout.getLsbD n) ∧
    (∀ n, 16 ≤ n → (readReg s 0x05).getLsbD n = false) ∧
    (readReg s 0x06).getLsbD 0 = decide (s.cfg.latchPolicy = .skipSame) ∧
    (readReg s 0x06).getLsbD 1 = decide (s.cfg.verifyPolicy = .bounded) ∧
    (∀ n, 2 ≤ n → (readReg s 0x06).getLsbD n = false) ∧
    readReg State.reset 0x02 = 0 ∧ readReg State.reset 0x03 = 0 ∧ readReg State.reset 0x05 = 0x00000018

/-- R41 and the writes of R32, R39: only ADDR and the staging registers take a host write, whole; any other index but
CMD changes nothing; no such write emits an event; a reserved index and CMD read 0 and no read has a side effect. -/
def Obligations.RegisterWrites : Prop :=
  (∀ (idx : BitVec 5) (s : State), (idx = 0x00 ∨ idx = 0x0F ∨ 0x1A ≤ idx) →
    perform (.read idx) s = .next { s with replies := s.replies ++ [0] }) ∧
  (∀ (idx : BitVec 5) (s : State), ∃ v, perform (.read idx) s = .next { s with replies := s.replies ++ [v] }) ∧
  ∀ (w : Word) (s : State),
    hostWrite 0x01 w s = .next { s with blk := { s.blk with addrReg := w } } ∧
    hostWrite 0x08 w s = .next { s with blk := { s.blk with stg := { s.blk.stg with capacity := w } } } ∧
    hostWrite 0x09 w s = .next { s with blk := { s.blk with stg := { s.blk.stg with clock := w } } } ∧
    hostWrite 0x0A w s = .next { s with blk := { s.blk with stg := { s.blk.stg with wc := w } } } ∧
    hostWrite 0x0B w s = .next { s with blk := { s.blk with stg := { s.blk.stg with wp := w } } } ∧
    hostWrite 0x0C w s = .next { s with blk := { s.blk with stg := { s.blk.stg with oe := w } } } ∧
    hostWrite 0x0D w s = .next { s with blk := { s.blk with stg := { s.blk.stg with od := w } } } ∧
    hostWrite 0x0E w s = .next { s with blk := { s.blk with stg := { s.blk.stg with acc := w } } } ∧
    (∀ idx : BitVec 5, idx ≠ 0 → idx ≠ 0x01 → ¬ (0x08 ≤ idx ∧ idx ≤ 0x0E) → hostWrite idx w s = .next s)

/-- R97 and R98: every line as the host accesses it stands for, written out with the indices of R30 and the words of R92.
That ERASE does not end at a failure is the model's reading of a choice R98 leaves to the host
(notes/assumptions/21.md). -/
def Obligations.PseudoInstructionsExpand : Prop :=
  (∀ p ∈ ([(.cmd, 0x00), (.addr, 0x01), (.result, 0x02), (.status, 0x03), (.curAddr, 0x04), (.pins, 0x05),
      (.config, 0x06), (.retryCap, 0x07), (.chip .capacity, 0x08), (.chip .clock, 0x09), (.chip .wc, 0x0A),
      (.chip .wp, 0x0B), (.chip .oe, 0x0C), (.chip .od, 0x0D), (.chip .acc, 0x0E), (.act .capacity, 0x10),
      (.act .clock, 0x11), (.act .wc, 0x12), (.act .wp, 0x13), (.act .oe, 0x14), (.act .od, 0x15), (.act .acc, 0x16),
      (.tLatch, 0x17), (.tShift, 0x18), (.tSettle, 0x19)] : List (RegName × BitVec 5)),
    expand (.rd p.1) = [.access (.read p.2)] ∧
    ∀ x : Nat, x < 2 ^ 32 → expand (.wr p.1 x) = [.access (.write p.2 (BitVec.ofNat 32 x))]) ∧
  expand .opn = [.access (.write 0x00 0x00000001)] ∧
  expand .cls = [.access (.write 0x00 0x00000002)] ∧
  expand .setchip = [.access (.write 0x00 0x00000003)] ∧
  expand .read = [.access (.write 0x00 0x00000004)] ∧
  (∀ v : Nat, v < 256 → expand (.write v) = [.access (.write 0x00 (BitVec.ofNat 32 (v * 256 + 5)))]) ∧
  (∀ a : Nat, a < 2 ^ 32 → expand (.readAt a) =
    [.access (.write 0x01 (BitVec.ofNat 32 a)), .access (.write 0x00 0x00000004), .access (.read 0x02)]) ∧
  (∀ a v : Nat, a < 2 ^ 32 → v < 256 → expand (.writeAt a v) =
    [.access (.write 0x01 (BitVec.ofNat 32 a)), .access (.write 0x00 (BitVec.ofNat 32 (v * 256 + 5))),
     .access (.read 0x02)]) ∧
  expand (.erase 0) = [] ∧
  (∀ n : Nat, n < 2 ^ 32 → expand (.erase (n + 1)) = expand (.erase n) ++
    [.access (.write 0x01 (BitVec.ofNat 32 n)), .access (.write 0x00 0x0000FF05), .access (.read 0x02)]) ∧
  (∀ d : ChipDesc, expand (.setchipWith d) =
    [.access (.write 0x08 d.capacity), .access (.write 0x09 d.clock), .access (.write 0x0A d.wc),
     .access (.write 0x0B d.wp), .access (.write 0x0C d.oe), .access (.write 0x0D d.od), .access (.write 0x0E d.acc),
     .access (.write 0x00 0x00000003)]) ∧
  (∀ l p, assemble (l :: p) = expand l ++ assemble p)

/-! ## Steps, reset, the whole machine -/

/-- A step runs the decoded command: a write of a legal word to CMD at the head of the host's inputs is taken off and
executed; an illegal word is BAD_CMD; any other access is performed. Around the command the step adds only a pending
reset (spec/70_reset_and_hazards.md R302), and none is pending here. -/
def Obligations.StepRunsDecodedCommand : Prop :=
  ∀ (s : State) (rest : List HostInput), s.blk.seq = .idle → (∀ n r, rest ≠ .reset n :: r) →
    (∀ w i, s.host = .access (.write 0x00 w) :: rest → decode w = .ok i → step s = exec i { s with host := rest }) ∧
    (∀ w e, s.host = .access (.write 0x00 w) :: rest → decode w = .error e →
      step s = .next (raise .badCmd { s with host := rest })) ∧
    (∀ a, s.host = .access a :: rest → step s = perform a { s with host := rest }) ∧
    (s.host = [] → step s = .next s)

/-- R42: while a command runs no host input is taken and nothing is read. -/
def Obligations.HostStalledWhileRunning : Prop :=
  ∀ s t : State, s.blk.seq ≠ .idle → (∀ n rest, s.host ≠ .reset n :: rest) → step s = .next t →
    t.host = s.host ∧ t.replies = s.replies

/-- R44 and R300: the reset values, at power-on, at a reset taken while the block is IDLE, and at a reset due at once in a
state of the invariant, a verify loop included; it emits no event and leaves the environment alone (R301). A reset that
falls within the events of a command or of an iteration is `ResetCutsCommandShort`. How an input places a reset, and that
`reset n` acts at once where no command runs, is the model's choice (notes/assumptions/5.md). -/
def Obligations.ResetValues : Prop :=
  AtResetValues State.reset.blk ∧ State.reset.trace = [] ∧
  (∀ (s : State) (n : Nat) (rest : List HostInput), s.blk.seq = .idle → s.host = .reset n :: rest →
    ∃ t, step s = .next t ∧ AtResetValues t.blk ∧ t.trace = s.trace ∧ t.env = s.env ∧ t.host = rest ∧ t.cfg = s.cfg) ∧
  (∀ (s : State) (rest : List HostInput), Inv s → s.host = .reset 0 :: rest →
    ∃ t, step s = .next t ∧ AtResetValues t.blk ∧ t.trace = s.trace ∧ t.env = s.env ∧ t.host = rest ∧ t.cfg = s.cfg)

/-- R302: a reset `n` events into a command, or into a further iteration of a verify loop, leaves the first `n` of its
events in the trace, the block at its reset values and the host's access dropped; a reset that comes later than the last
event of the step is so many events nearer afterwards. How an input says when `rst` comes (notes/assumptions/5.md), that
a step from WR6a is an iteration (notes/assumptions/3.md), the temporaries at 0 in `Block.reset`
(notes/assumptions/8.md), and that a pulse cut short does nothing more to the environment (U17;
notes/assumptions/22.md) are the model's choice. -/
def Obligations.ResetCutsCommandShort : Prop :=
  (∀ (s t : State) (i : Instr) (w : Word) (n : Nat) (rest : List HostInput) (es : List Event),
    s.blk.seq = .idle → s.host = .access (.write 0x00 w) :: .reset n :: rest → decode w = .ok i →
    exec i { s with host := .reset n :: rest } = .next t → t.trace = s.trace ++ es →
    (n < es.length →
      ∃ u, step s = .next u ∧ u.blk = Block.reset ∧ u.trace = s.trace ++ es.take n ∧ u.host = rest ∧
        u.replies = s.replies ∧ u.env = (replay (es.take n) s).env) ∧
    (es.length ≤ n → step s = .next { t with host := .reset (n - es.length) :: rest })) ∧
  (∀ (s : State) (T : ChipDesc) (n : Nat) (rest : List HostInput),
    s.blk.seq = .wr6a → s.blk.chip = some T → s.blk.dir = .input → s.host = .reset n :: rest →
    let x := sample (replay (Trace.setPin .oe false T.oe) s)
    let y := sample (replay (Trace.reading T x ++ Trace.setPin .oe false T.oe) s)
    let es := Trace.iteration s.cfg T x y
    (n < es.length →
      ∃ u, step s = .next u ∧ u.blk = Block.reset ∧ u.trace = s.trace ++ es.take n ∧ u.host = rest ∧
        u.replies = s.replies ∧ u.env = (replay (es.take n) s).env) ∧
    (es.length ≤ n →
      step s = .next
        { s with
          blk := afterTest s.cfg { s.blk with oe := true, r1 := x, r2 := y }
          env := (replay es s).env
          trace := s.trace ++ es
          host := .reset (n - es.length) :: rest }))

/-- The configuration never changes and the trace only grows (R5, R10), in every step from every state. -/
def Obligations.ConfigurationFixedTraceGrows : Prop :=
  ∀ s t : State, step s = .next t → t.cfg = s.cfg ∧ ∃ es, t.trace = s.trace ++ es

/-- The invariant holds at reset. -/
def Obligations.InvariantAtReset : Prop := Inv State.reset

/-- The invariant of spec/10_state.md sections 6 (R45, R46), spec/41_address_latch.md R149, spec/20_memory.md R64 and of
the memory's canonical form: every step keeps it. -/
def Obligations.EveryStepKeepsInvariant : Prop :=
  ∀ s t : State, Inv s → step s = .next t → Inv t

/-- The machine never stops: where the invariant holds, a step answers a next state (R42, R265, R273). -/
def Obligations.MachineNeverStops : Prop :=
  ∀ s : State, Inv s → ∃ t, step s = .next t

/-- The second half of R45 (the spec's inference, R316): at every point of every trace the block drives the data bus only
while it keeps the chip's outputs disabled. -/
def Obligations.BusNeverContended : Prop :=
  ∀ s t : State, Inv s → step s = .next t →
    ∃ es, t.trace = s.trace ++ es ∧ Trace.busSafe s.blk.oe s.blk.dir es = true

/-! ## The steps of WRITE and the reset operation, apart from how the machine cuts a run into steps -/

/-- R201, R205, R206, R208: what each step does, from every state: WR1, WR5, the two readings of WR6a and WR6b, and the
success test of WR6d. -/
def Obligations.WriteStepsDoTheirPart : Prop :=
  ∀ (s : State) (T : ChipDesc),
    let x := sample (replay (Trace.setPin .oe false T.oe) s)
    writeWR1 T s =
      { s with
        blk := { s.blk with oe := true, seq := .wr1 }
        env := (replay (Trace.setPin .oe true T.od) s).env
        trace := s.trace ++ Trace.setPin .oe true T.od } ∧
    writeWR5 s =
      { s with
        blk := { s.blk with dir := .input, iter := 0, seq := .wr5 }
        env := (replay [.dir .input] s).env
        trace := s.trace ++ [.dir .input] } ∧
    (s.blk.dir = .input →
      writeWR6a T s = .next
        { s with
          blk := { s.blk with oe := true, r1 := x, seq := .wr6a }
          env := (replay (Trace.reading T x) s).env
          trace := s.trace ++ Trace.reading T x } ∧
      writeWR6b T s = .next
        { s with
          blk := { s.blk with oe := true, r2 := x, seq := .wr6b }
          env := (replay (Trace.reading T x) s).env
          trace := s.trace ++ Trace.reading T x }) ∧
    (s.blk.r1 = s.blk.r2 ∧ s.blk.r1 = s.blk.wval →
      writeWR6d s = { s with blk := { s.blk with result := zext9 s.blk.r1, code := .ok, seq := .idle } }) ∧
    (¬ (s.blk.r1 = s.blk.r2 ∧ s.blk.r1 = s.blk.wval) → writeWR6d s = verifyFailed (atPhase .wr6d s))

/-- R44: every field of `S` that has a reset value has it after power-on and after reset from every state; reset emits no
event and leaves the rest of the machine as it is (R300, R301). -/
def Obligations.ResetGivesListedValues : Prop :=
  AtResetValues State.reset.blk ∧
  ∀ s : State, AtResetValues (resetBlock s).blk ∧ (resetBlock s).trace = s.trace ∧ (resetBlock s).env = s.env ∧
    (resetBlock s).cfg = s.cfg ∧ (resetBlock s).host = s.host ∧ (resetBlock s).replies = s.replies
end

