-- ==== Sys2Proof/Laws/State.lean ====
section
/-! SUPPORT. One lemma per field and update, true by unfolding the update, for the shared operations of
Machine/Ops.lean. -/

namespace Sys2Proof.Machine

variable (s : State) (e : Event) (p : Phase) (a : Addr16) (r : BitVec 9) (c : Code) (d : Word)

@[simp] theorem emit_cfg : (emit e s).cfg = s.cfg := rfl
@[simp] theorem emit_host : (emit e s).host = s.host := rfl
@[simp] theorem emit_replies : (emit e s).replies = s.replies := rfl
@[simp] theorem emit_blk : (emit e s).blk = s.blk.absorb e := rfl
@[simp] theorem emit_env : (emit e s).env = s.env.observe s.blk e := rfl
@[simp] theorem emit_trace : (emit e s).trace = s.trace ++ [e] := rfl

@[simp] theorem atPhase_cfg : (atPhase p s).cfg = s.cfg := rfl
@[simp] theorem atPhase_host : (atPhase p s).host = s.host := rfl
@[simp] theorem atPhase_replies : (atPhase p s).replies = s.replies := rfl
@[simp] theorem atPhase_blk : (atPhase p s).blk = { s.blk with seq := p } := rfl
@[simp] theorem atPhase_env : (atPhase p s).env = s.env := rfl
@[simp] theorem atPhase_trace : (atPhase p s).trace = s.trace := rfl

@[simp] theorem setCurAddr_cfg : (setCurAddr a s).cfg = s.cfg := rfl
@[simp] theorem setCurAddr_host : (setCurAddr a s).host = s.host := rfl
@[simp] theorem setCurAddr_replies : (setCurAddr a s).replies = s.replies := rfl
@[simp] theorem setCurAddr_blk : (setCurAddr a s).blk = { s.blk with curAddr := a } := rfl
@[simp] theorem setCurAddr_env : (setCurAddr a s).env = s.env := rfl
@[simp] theorem setCurAddr_trace : (setCurAddr a s).trace = s.trace := rfl

@[simp] theorem complete_cfg : (complete r s).cfg = s.cfg := rfl
@[simp] theorem complete_host : (complete r s).host = s.host := rfl
@[simp] theorem complete_replies : (complete r s).replies = s.replies := rfl
@[simp] theorem complete_blk : (complete r s).blk = { s.blk with result := r, code := .ok, seq := .idle } := rfl
@[simp] theorem complete_env : (complete r s).env = s.env := rfl
@[simp] theorem complete_trace : (complete r s).trace = s.trace := rfl

@[simp] theorem raise_cfg : (raise c s).cfg = s.cfg := rfl
@[simp] theorem raise_host : (raise c s).host = s.host := rfl
@[simp] theorem raise_replies : (raise c s).replies = s.replies := rfl
@[simp] theorem raise_blk : (raise c s).blk = { s.blk with code := c, result := sentinel, seq := .idle } := rfl
@[simp] theorem raise_env : (raise c s).env = s.env := rfl
@[simp] theorem raise_trace : (raise c s).trace = s.trace := rfl

@[simp] theorem resetBlock_cfg : (resetBlock s).cfg = s.cfg := rfl
@[simp] theorem resetBlock_host : (resetBlock s).host = s.host := rfl
@[simp] theorem resetBlock_replies : (resetBlock s).replies = s.replies := rfl
@[simp] theorem resetBlock_blk : (resetBlock s).blk = Block.reset := rfl
@[simp] theorem resetBlock_env : (resetBlock s).env = s.env := rfl
@[simp] theorem resetBlock_trace : (resetBlock s).trace = s.trace := rfl

@[simp] theorem absorb_pin (b : Block) (q : Pin) (l : Level) : b.absorb (.pin q l) = b.writePin q l := rfl
@[simp] theorem absorb_ctlEn (b : Block) : b.absorb .ctlEn = { b with driven := true } := rfl
@[simp] theorem absorb_dir (b : Block) (x : Dir) : b.absorb (.dir x) = { b with dir := x } := rfl
@[simp] theorem absorb_drv (b : Block) (v : Byte) : b.absorb (.drv v) = { b with dout := v } := rfl
@[simp] theorem absorb_smp (b : Block) (v : Byte) : b.absorb (.smp v) = b := rfl
@[simp] theorem absorb_delay (b : Block) (n : Nat) : b.absorb (.delay n) = b := rfl

@[simp] theorem writePin_clk (b : Block) (l : Level) : b.writePin .clk l = { b with clk := l } := rfl
@[simp] theorem writePin_dat (b : Block) (l : Level) : b.writePin .dat l = { b with dat := l } := rfl
@[simp] theorem writePin_lat (b : Block) (l : Level) : b.writePin .lat l = { b with lat := l } := rfl
@[simp] theorem writePin_oe (b : Block) (l : Level) : b.writePin .oe l = { b with oe := l } := rfl
@[simp] theorem writePin_we (b : Block) (l : Level) : b.writePin .we l = { b with we := l } := rfl

@[simp] theorem andThen_next {α β : Type} (x : α) (f : α → Out β) : andThen (.next x) f = f x := rfl

/-- What `andThen` answers a next state from. -/
theorem andThen_eq_next {α β : Type} {o : Out α} {f : α → Out β} {y : β} :
    andThen o f = .next y ↔ ∃ x, o = .next x ∧ f x = .next y := by
  cases o <;> simp [andThen]

/-- Two states with the same fields are the same state. -/
theorem State.eq_of_fields {s t : State} (hc : s.cfg = t.cfg) (hb : s.blk = t.blk) (he : s.env = t.env)
    (hh : s.host = t.host) (hr : s.replies = t.replies) (ht : s.trace = t.trace) : s = t := by
  cases s; cases t; simp_all

end Sys2Proof.Machine
end

