-- ==== Sys2Proof/Laws/Replay.lean ====
section
/-! SUPPORT. Every procedure of the block is a replay of the events its rule lists, with the phase it ends in: the
bridge from the machine's definitions to the event lists of Safety.lean. -/

namespace Sys2Proof.Machine

@[simp] theorem replay_nil (s : State) : replay [] s = s := rfl
@[simp] theorem replay_cons (e : Event) (es : List Event) (s : State) : replay (e :: es) s = replay es (emit e s) := rfl

theorem replay_append (es fs : List Event) (s : State) : replay (es ++ fs) s = replay fs (replay es s) := by
  simp [replay]

@[simp] theorem replay_cfg (es : List Event) (s : State) : (replay es s).cfg = s.cfg := by
  induction es generalizing s <;> simp [*]
@[simp] theorem replay_host (es : List Event) (s : State) : (replay es s).host = s.host := by
  induction es generalizing s <;> simp [*]
@[simp] theorem replay_replies (es : List Event) (s : State) : (replay es s).replies = s.replies := by
  induction es generalizing s <;> simp [*]
@[simp] theorem replay_trace (es : List Event) (s : State) : (replay es s).trace = s.trace ++ es := by
  induction es generalizing s <;> simp [*]

/-- The registers after a list of events. -/
def absorbAll (es : List Event) (b : Block) : Block := es.foldl Block.absorb b

@[simp] theorem absorbAll_nil (b : Block) : absorbAll [] b = b := rfl
@[simp] theorem absorbAll_cons (e : Event) (es : List Event) (b : Block) :
    absorbAll (e :: es) b = absorbAll es (b.absorb e) := rfl
theorem absorbAll_append (es fs : List Event) (b : Block) : absorbAll (es ++ fs) b = absorbAll fs (absorbAll es b) := by
  simp [absorbAll]

@[simp] theorem absorbAll_wait (d : Word) (b : Block) : absorbAll (Trace.wait d) b = b := by
  unfold Trace.wait; split <;> rfl
@[simp] theorem absorbAll_setPin (p : Pin) (l : Level) (d : Word) (b : Block) :
    absorbAll (Trace.setPin p l d) b = b.writePin p l := by
  simp [Trace.setPin]

@[simp] theorem replay_blk (es : List Event) (s : State) : (replay es s).blk = absorbAll es s.blk := by
  induction es generalizing s <;> simp [*]

/-- The registers an event does not touch and the environment does not look at. -/
structure SameWires (b b' : Block) : Prop where
  clk : b.clk = b'.clk
  dat : b.dat = b'.dat
  lat : b.lat = b'.lat
  oe : b.oe = b'.oe
  we : b.we = b'.we
  dir : b.dir = b'.dir
  driven : b.driven = b'.driven
  dout : b.dout = b'.dout
  wc : wcTime b = wcTime b'

@[simp] theorem wcTime_absorb (b : Block) (e : Event) : wcTime (b.absorb e) = wcTime b := by
  cases e with
  | pin p l => cases p <;> rfl
  | _ => rfl

@[simp] theorem wcTime_absorbAll (es : List Event) (b : Block) : wcTime (absorbAll es b) = wcTime b := by
  induction es generalizing b <;> simp [*]

theorem SameWires.absorb {b b' : Block} (h : SameWires b b') (e : Event) : SameWires (b.absorb e) (b'.absorb e) := by
  obtain ⟨h1, h2, h3, h4, h5, h6, h7, h8, h9⟩ := h
  have hw : wcTime (b.absorb e) = wcTime (b'.absorb e) := by simp [h9]
  cases e with
  | pin p l => cases p <;> constructor <;> first | exact hw | simp [*]
  | ctlEn => constructor <;> first | exact hw | simp [*]
  | dir d => constructor <;> first | exact hw | simp [*]
  | drv v => constructor <;> first | exact hw | simp [*]
  | smp v => constructor <;> first | exact hw | simp [*]
  | delay n => constructor <;> first | exact hw | simp [*]

theorem observe_congr {b b' : Block} (h : SameWires b b') (v : Env) (e : Event) : v.observe b e = v.observe b' e := by
  obtain ⟨h1, h2, h3, h4, h5, h6, h7, h8, h9⟩ := h
  cases e with
  | pin p l => cases p <;> simp [Env.observe, risingEdge, *]
  | ctlEn => rfl
  | dir d => cases d <;> simp [Env.observe, *]
  | drv v => simp [Env.observe, *]
  | smp v => rfl
  | delay n => rfl

theorem answer_congr {b b' : Block} (h : SameWires b b') (v : Env) : v.answer b = v.answer b' := by
  obtain ⟨h1, h2, h3, h4, h5, h6, h7, h8, h9⟩ := h
  simp [Env.answer, *]

/-- What the environment becomes over a list of events depends on the wires alone. -/
theorem replay_env_congr (es : List Event) {s s' : State} (h : SameWires s.blk s'.blk) (he : s.env = s'.env) :
    (replay es s).env = (replay es s').env := by
  induction es generalizing s s' with
  | nil => simpa
  | cons e es ih =>
    refine ih (by simpa using h.absorb e) ?_
    simp only [emit_env, he]
    exact observe_congr h _ e

theorem delay_eq_replay (d : Word) (s : State) : delay d s = replay (Trace.wait d) s := by
  unfold delay Trace.wait; split <;> rfl

theorem setPin_eq_replay (p : Pin) (l : Level) (d : Word) (s : State) :
    setPin p l d s = replay (Trace.setPin p l d) s := by
  simp [setPin, Trace.setPin, delay_eq_replay]

theorem emit_atPhase (e : Event) (p : Phase) (s : State) : emit e (atPhase p s) = atPhase p (emit e s) := by
  cases e with
  | pin q l => cases q <;> rfl
  | ctlEn => rfl
  | dir d => cases d <;> rfl
  | drv v => rfl
  | smp v => rfl
  | delay n => rfl

theorem replay_atPhase (es : List Event) (p : Phase) (s : State) : replay es (atPhase p s) = atPhase p (replay es s) := by
  induction es generalizing s with
  | nil => rfl
  | cons e es ih => simp [emit_atPhase, ih]

@[simp] theorem atPhase_atPhase (p q : Phase) (s : State) : atPhase p (atPhase q s) = atPhase p s := rfl

theorem emit_setCurAddr (e : Event) (a : Addr16) (s : State) : emit e (setCurAddr a s) = setCurAddr a (emit e s) := by
  cases e with
  | pin q l => cases q <;> rfl
  | ctlEn => rfl
  | dir d => cases d <;> rfl
  | drv v => rfl
  | smp v => rfl
  | delay n => rfl

theorem replay_setCurAddr (es : List Event) (a : Addr16) (s : State) :
    replay es (setCurAddr a s) = setCurAddr a (replay es s) := by
  induction es generalizing s with
  | nil => rfl
  | cons e es ih => simp [emit_setCurAddr, ih]

theorem setCurAddr_atPhase (a : Addr16) (p : Phase) (s : State) :
    setCurAddr a (atPhase p s) = atPhase p (setCurAddr a s) := rfl

end Sys2Proof.Machine
end

