-- ==== Sys2Proof/Laws/AddressLatch.lean ====
section
/-! SUPPORT. The Address Latch Driver as replays of the event lists of R142 to R147, and what a shift/latch sequence
leaves in the block and in the reference latch (spec/41_address_latch.md R145, R149; spec/20_memory.md R70). -/

namespace Sys2Proof.Machine

theorem shiftBit_eq_replay (b : Level) (s : State) : shiftBit b s = replay (Trace.shiftBit s.cfg b) s := by
  simp [shiftBit, Trace.shiftBit, setPin_eq_replay, replay_append, Trace.setPin, Trace.wait]

theorem shiftBits_eq_replay (lab : Nat → Phase) (x : Byte) (n : Nat) (s : State) :
    shiftBits lab x (n + 1) s
      = atPhase (lab 0) (replay (((List.range (n + 1)).reverse.map fun i => x.getLsbD i).flatMap (Trace.shiftBit s.cfg)) s) := by
  induction n generalizing s with
  | zero => simp [shiftBits, shiftBit_eq_replay, replay_atPhase]
  | succ n ih =>
    rw [shiftBits, ih, List.range_succ (n := n + 1)]
    simp [shiftBit_eq_replay, replay_atPhase, replay_append]

theorem shiftByte_eq_replay (lab : Nat → Phase) (x : Byte) (s : State) :
    shiftByte lab x s = atPhase (lab 0) (replay ((Trace.msbFirst x).flatMap (Trace.shiftBit s.cfg)) s) := by
  rw [shiftByte, shiftBits_eq_replay]; rfl

theorem latchPulse_eq_replay (outer : AddrPhase → Phase) (s : State) :
    latchPulse outer s = atPhase (outer .latch) (replay (Trace.latchPulse s.cfg) s) := by
  simp [latchPulse, Trace.latchPulse, setPin_eq_replay, replay_append, replay_atPhase]

theorem addressBits_eq (a : Addr16) : Trace.addressBits a = Trace.msbFirst (hiByte a) ++ Trace.msbFirst (loByte a) := by
  simp [Trace.addressBits, Trace.msbFirst, hiByte, loByte, BitVec.getLsbD_extractLsb']

/-- `ShiftLatch(a)` emits the events of R145 and ends in SA_LATCH. -/
theorem shiftLatch_eq_replay (outer : AddrPhase → Phase) (a : Addr16) (s : State) :
    shiftLatch outer a s = atPhase (outer .latch) (replay (Trace.shiftLatch s.cfg a) s) := by
  simp [shiftLatch, Trace.shiftLatch, shiftByte_eq_replay, latchPulse_eq_replay, addressBits_eq, replay_append,
    replay_atPhase]

/-- The sub-phase `SetAddress(a)` ends in. -/
def addressEnd (c : Cfg) (cur a : Addr16) : AddrPhase := if Trace.skip c cur a then .test else .latch

theorem skips_eq (a : Addr16) (s : State) : skips a s = Trace.skip s.cfg s.blk.curAddr a := rfl

/-- `SetAddress(a)`: the events of R147, then the cached address (R146). -/
theorem setAddress_eq_replay (outer : AddrPhase → Phase) (a : Addr16) (s : State) :
    setAddress outer a s
      = setCurAddr a (atPhase (outer (addressEnd s.cfg s.blk.curAddr a))
          (replay (Trace.setAddress s.cfg s.blk.curAddr a) s)) := by
  unfold setAddress addressEnd Trace.setAddress
  rw [skips_eq]
  split <;> simp [shiftLatch_eq_replay, replay_atPhase]

/-- The registers after `ShiftLatch(a)` (R142, R144, R145). -/
@[simp] theorem absorbAll_shiftLatch (c : Cfg) (a : Addr16) (b : Block) :
    absorbAll (Trace.shiftLatch c a) b = { b with clk := false, dat := a.getLsbD 0, lat := false } := by
  simp [Trace.shiftLatch, Trace.addressBits, Trace.shiftBit, Trace.latchPulse, absorbAll_append]

end Sys2Proof.Machine
end

