-- ==== Sys2Proof/Laws/Memory.lean ====
section
/-! SUPPORT. The byte array of a reference chip: read after write, and every write keeps the canonical form. -/

namespace Sys2Proof.Machine

theorem lookupCell_eq_none_of_lt {cs : List Host.Cell} {a : Nat} (h : ∀ c ∈ cs, a < c.1) : lookupCell cs a = none := by
  induction cs with
  | nil => rfl
  | cons c cs ih =>
    obtain ⟨k, v⟩ := c
    have hk : a < k := h (k, v) (by simp)
    have hne : k ≠ a := by omega
    simp [lookupCell, hne, ih fun c hc => h c (by simp [hc])]

/-- Reading the address just written, in a rising list. -/
theorem lookup_putCell_same (fill : Byte) (a : Nat) (v : Byte) {cs : List Host.Cell}
    (h : cs.Pairwise fun x y => x.1 < y.1) : (lookupCell (putCell fill a v cs) a).getD fill = v := by
  induction cs with
  | nil => by_cases hv : v = fill <;> simp [putCell, lookupCell, hv]
  | cons c cs ih =>
    obtain ⟨k, w⟩ := c
    obtain ⟨hhd, htl⟩ := List.pairwise_cons.1 h
    unfold putCell
    by_cases h1 : a < k
    · by_cases hv : v = fill
      · have hne : k ≠ a := by omega
        have : lookupCell cs a = none := lookupCell_eq_none_of_lt fun c hc => by
          have := hhd c hc
          simp only at this; omega
        simp [h1, hv, lookupCell, hne, this]
      · simp [h1, hv, lookupCell]
    · by_cases h2 : a = k
      · subst h2
        by_cases hv : v = fill
        · have : lookupCell cs a = none := lookupCell_eq_none_of_lt hhd
          simp [hv, this]
        · simp [hv, lookupCell]
      · have hne : k ≠ a := Ne.symm h2
        simp [h1, h2, lookupCell, hne, ih htl]

/-- Reading another address. -/
theorem lookup_putCell_other (fill : Byte) {a b : Nat} (v : Byte) (hab : b ≠ a) (cs : List Host.Cell) :
    lookupCell (putCell fill a v cs) b = lookupCell cs b := by
  induction cs with
  | nil => by_cases hv : v = fill <;> simp [putCell, lookupCell, hv, Ne.symm hab]
  | cons c cs ih =>
    obtain ⟨k, w⟩ := c
    unfold putCell
    by_cases h1 : a < k
    · by_cases hv : v = fill <;> simp [h1, hv, lookupCell, Ne.symm hab]
    · by_cases h2 : a = k
      · subst h2
        by_cases hv : v = fill <;> simp [hv, lookupCell, Ne.symm hab]
      · simp [h1, h2, lookupCell, ih]

theorem mem_putCell {fill : Byte} {a : Nat} {v : Byte} {cs : List Host.Cell} {c : Host.Cell}
    (h : c ∈ putCell fill a v cs) : (c = (a, v) ∧ v ≠ fill) ∨ c ∈ cs := by
  induction cs with
  | nil =>
    by_cases hv : v = fill
    · simp [putCell, hv] at h
    · simp [putCell, hv] at h; exact .inl ⟨h, hv⟩
  | cons d ds ih =>
    obtain ⟨k, w⟩ := d
    unfold putCell at h
    by_cases h1 : a < k
    · by_cases hv : v = fill
      · simp [h1, hv] at h; right; simpa using h
      · simp [h1, hv] at h
        rcases h with rfl | h
        · exact .inl ⟨rfl, hv⟩
        · right; simpa using h
    · by_cases h2 : a = k
      · by_cases hv : v = fill
        · simp [h2, hv] at h; right; simp [h]
        · simp [h2, hv] at h
          rcases h with rfl | h
          · exact .inl ⟨by simp [h2], hv⟩
          · right; simp [h]
      · simp [h1, h2] at h
        rcases h with rfl | h
        · right; simp
        · rcases ih h with h | h
          · exact .inl h
          · right; simp [h]

theorem putCell_rising (fill : Byte) (a : Nat) (v : Byte) {cs : List Host.Cell}
    (h : cs.Pairwise fun x y => x.1 < y.1) : (putCell fill a v cs).Pairwise fun x y => x.1 < y.1 := by
  induction cs with
  | nil => by_cases hv : v = fill <;> simp [putCell, hv]
  | cons d ds ih =>
    obtain ⟨k, w⟩ := d
    obtain ⟨hhd, htl⟩ := List.pairwise_cons.1 h
    unfold putCell
    by_cases h1 : a < k
    · by_cases hv : v = fill
      · simpa [h1, hv] using h
      · simp only [h1, hv, if_true, if_false]
        refine List.pairwise_cons.2 ⟨?_, h⟩
        intro c hc
        rcases List.mem_cons.1 hc with rfl | hc
        · exact h1
        · exact lt_trans h1 (hhd c hc)
    · by_cases h2 : a = k
      · subst h2
        by_cases hv : v = fill
        · simpa [hv] using htl
        · simp only [lt_irrefl, hv, if_true, if_false]
          exact List.pairwise_cons.2 ⟨hhd, htl⟩
      · simp only [h1, h2, if_false]
        refine List.pairwise_cons.2 ⟨?_, ih htl⟩
        intro c hc
        rcases mem_putCell hc with ⟨rfl, -⟩ | hc
        · simp only; omega
        · exact hhd c hc

@[simp] theorem Memory.write_fill (m : Memory) (a : Nat) (v : Byte) : (m.write a v).fill = m.fill := rfl

/-- A read after a write to the same address gives the byte written. -/
theorem Memory.read_write_same {m : Memory} (h : m.wf) (a : Nat) (v : Byte) : (m.write a v).read a = v :=
  lookup_putCell_same m.fill a v h.1

/-- A write leaves every other address alone. -/
theorem Memory.read_write_other (m : Memory) {a b : Nat} (v : Byte) (h : b ≠ a) : (m.write a v).read b = m.read b := by
  simp [Memory.read, Memory.write, lookup_putCell_other m.fill v h]

/-- A write keeps the canonical form. -/
theorem Memory.write_wf {m : Memory} (h : m.wf) {a : Nat} (ha : a < 65536) (v : Byte) : (m.write a v).wf := by
  refine ⟨putCell_rising m.fill a v h.1, fun c hc => ?_⟩
  rcases mem_putCell hc with ⟨rfl, hv⟩ | hc
  · exact ⟨ha, hv⟩
  · exact h.2 c hc

theorem RefChip.index_lt (c : RefChip) (a : Addr16) : c.index a < 65536 :=
  lt_of_le_of_lt (Nat.mod_le _ _) a.isLt

/-- Every chip operation keeps the array's canonical form. -/
theorem RefChip.commit_wf {c : RefChip} (h : c.mem.wf) (now wc : Nat) (a : Addr16) (v : Byte) :
    (c.commit now wc a v).mem.wf := by
  unfold RefChip.commit
  split
  · exact Memory.write_wf h (c.index_lt a) v
  · exact Memory.write_wf h (c.index_lt a) v
  · exact h

@[simp] theorem RefChip.expire_mem (c : RefChip) (now : Nat) : (c.expire now).mem = c.mem := rfl
@[simp] theorem RefChip.expire_kind (c : RefChip) (now : Nat) : (c.expire now).kind = c.kind := rfl
@[simp] theorem RefChip.expire_capacity (c : RefChip) (now : Nat) : (c.expire now).capacity = c.capacity := rfl

/-- Every byte but the one the pulse addresses stays. -/
theorem RefChip.commit_read_other (c : RefChip) (now wc : Nat) (a : Addr16) (v : Byte) {k : Nat} (h : k ≠ c.index a) :
    (c.commit now wc a v).mem.read k = c.mem.read k := by
  unfold RefChip.commit
  split
  · exact Memory.read_write_other _ _ h
  · exact Memory.read_write_other _ _ h
  · rfl

end Sys2Proof.Machine
end

