-- ==== Sys2Proof/Laws/Trace.lean ====
section
/-! SUPPORT. Counts, lengths and durations of the event lists of Safety.lean. -/

namespace Sys2Proof.Trace

open Machine

theorem duration_append (es fs : List Event) : duration (es ++ fs) = duration es + duration fs := by
  induction es with
  | nil => simp [duration]
  | cons e es ih => cases e <;> simp [duration, ih, Nat.add_assoc]

theorem samples_append (es fs : List Event) : samples (es ++ fs) = samples es + samples fs := by
  simp [samples]

theorem writes_append (p : Pin) (l : Level) (es fs : List Event) : writes p l (es ++ fs) = writes p l es + writes p l fs := by
  simp [writes]

theorem pins_append (es fs : List Event) : pins (es ++ fs) = pins es + pins fs := by
  simp [pins]

theorem datLevels_append (es fs : List Event) : datLevels (es ++ fs) = datLevels es ++ datLevels fs := by
  simp [datLevels]

@[simp] theorem samples_nil : samples [] = 0 := rfl
@[simp] theorem writes_nil (p : Pin) (l : Level) : writes p l [] = 0 := rfl
@[simp] theorem pins_nil : pins [] = 0 := rfl
@[simp] theorem datLevels_nil : datLevels [] = [] := rfl
@[simp] theorem duration_nil : duration [] = 0 := rfl

@[simp] theorem samples_cons (e : Event) (es : List Event) :
    samples (e :: es) = samples es + (if isSample e = true then 1 else 0) := List.countP_cons
@[simp] theorem writes_cons (p : Pin) (l : Level) (e : Event) (es : List Event) :
    writes p l (e :: es) = writes p l es + (if (e == .pin p l) = true then 1 else 0) := List.count_cons
@[simp] theorem pins_cons (e : Event) (es : List Event) :
    pins (e :: es) = pins es + (if isPin e = true then 1 else 0) := List.countP_cons
@[simp] theorem datLevels_cons (e : Event) (es : List Event) :
    datLevels (e :: es) = (datLevel e).toList ++ datLevels es := by
  cases h : datLevel e <;> simp [datLevels, h]

@[simp] theorem duration_wait (d : Word) : duration (wait d) = d.toNat := by
  unfold wait; split <;> simp_all [duration]
@[simp] theorem length_wait (d : Word) : (wait d).length = if d = 0 then 0 else 1 := by
  unfold wait; split <;> simp_all
@[simp] theorem samples_wait (d : Word) : samples (wait d) = 0 := by
  unfold wait; split <;> simp [isSample]
@[simp] theorem writes_wait (p : Pin) (l : Level) (d : Word) : writes p l (wait d) = 0 := by
  unfold wait; split <;> simp
@[simp] theorem pins_wait (d : Word) : pins (wait d) = 0 := by
  unfold wait; split <;> simp [isPin]
@[simp] theorem datLevels_wait (d : Word) : datLevels (wait d) = [] := by
  unfold wait; split <;> simp [datLevel]

@[simp] theorem duration_setPin (p : Pin) (l : Level) (d : Word) : duration (setPin p l d) = d.toNat := by
  simp [setPin, duration]
@[simp] theorem samples_setPin (p : Pin) (l : Level) (d : Word) : samples (setPin p l d) = 0 := by
  simp [setPin, isSample]
@[simp] theorem writes_setPin (p q : Pin) (l m : Level) (d : Word) :
    writes p l (setPin q m d) = if q = p ∧ m = l then 1 else 0 := by
  simp [setPin]
@[simp] theorem pins_setPin (p : Pin) (l : Level) (d : Word) : pins (setPin p l d) = 1 := by
  simp [setPin, isPin]
@[simp] theorem datLevels_setPin (p : Pin) (l : Level) (d : Word) (h : p ≠ .dat) : datLevels (setPin p l d) = [] := by
  cases p <;> simp_all [setPin, datLevel]

/-- What one bit counts for (R142). -/
theorem counts_shiftBit (c : Cfg) (b : Level) :
    duration (shiftBit c b) = 2 * c.tShift.toNat ∧ samples (shiftBit c b) = 0 ∧
    (∀ l, writes .we l (shiftBit c b) = 0) ∧ datLevels (shiftBit c b) = [b] ∧ pins (shiftBit c b) = 3 := by
  simp [shiftBit, duration, duration_append, samples_append, isSample, writes_append, datLevels_append, datLevel,
    pins_append, isPin]
  omega

/-- What a row of bits counts for. -/
theorem counts_bits (c : Cfg) (bs : List Level) :
    duration (bs.flatMap (shiftBit c)) = bs.length * (2 * c.tShift.toNat) ∧ samples (bs.flatMap (shiftBit c)) = 0 ∧
    (∀ l, writes .we l (bs.flatMap (shiftBit c)) = 0) ∧ datLevels (bs.flatMap (shiftBit c)) = bs ∧
    pins (bs.flatMap (shiftBit c)) = 3 * bs.length := by
  induction bs with
  | nil => simp
  | cons b bs ih =>
    obtain ⟨h1, h2, h3, h4, h5⟩ := ih
    obtain ⟨g1, g2, g3, g4, g5⟩ := counts_shiftBit c b
    simp only [List.flatMap_cons, duration_append, samples_append, writes_append, datLevels_append, pins_append,
      h1, h2, h3, h4, h5, g1, g2, g3, g4, g5, List.length_cons]
    refine ⟨?_, trivial, fun _ => trivial, by simp, ?_⟩ <;> ring

@[simp] theorem length_addressBits (a : Addr16) : (addressBits a).length = 16 := rfl

/-- The least time of a shift/latch sequence, `L` (R145, R331). -/
@[simp] theorem duration_shiftLatch (c : Cfg) (a : Addr16) :
    duration (shiftLatch c a) = 32 * c.tShift.toNat + 2 * c.tLatch.toNat := by
  simp [shiftLatch, latchPulse, duration_append, (counts_bits c _).1]
  omega

/-- A shift/latch sequence takes no sample. -/
@[simp] theorem samples_shiftLatch (c : Cfg) (a : Addr16) : samples (shiftLatch c a) = 0 := by
  simp [shiftLatch, latchPulse, samples_append, (counts_bits c _).2.1]

/-- A shift/latch sequence does not touch WE. -/
@[simp] theorem writes_we_shiftLatch (c : Cfg) (a : Addr16) (l : Level) : writes .we l (shiftLatch c a) = 0 := by
  simp [shiftLatch, latchPulse, writes_append, (counts_bits c _).2.2.1]

/-- The same counts for `SetAddress` (R147). -/
@[simp] theorem samples_setAddress (c : Cfg) (cur a : Addr16) : samples (setAddress c cur a) = 0 := by
  unfold setAddress; split <;> simp
@[simp] theorem writes_we_setAddress (c : Cfg) (cur a : Addr16) (l : Level) : writes .we l (setAddress c cur a) = 0 := by
  unfold setAddress; split <;> simp
/-- `Lx` of R186. -/
theorem duration_setAddress (c : Cfg) (cur a : Addr16) :
    duration (setAddress c cur a) = if skip c cur a then 0 else 32 * c.tShift.toNat + 2 * c.tLatch.toNat := by
  unfold setAddress; split <;> simp

end Sys2Proof.Trace
end

