-- ==== Sys2Proof/Laws/Environment.lean ====
section
/-! SUPPORT. What the environment makes of events: the reference clock, the sample count, the canonical form of the chip
array, the latch IC after a shift/latch sequence (spec/20_memory.md R70), the bytes of the chip. -/

namespace Sys2Proof.Machine

theorem observe_now (v : Env) (b : Block) (e : Event) : (v.observe b e).now = v.now + Trace.duration [e] := by
  cases e with
  | pin p l => cases p <;> simp only [Env.observe, Trace.duration] <;> (try split) <;> rfl
  | ctlEn => rfl
  | dir d => cases d <;> rfl
  | drv x => simp only [Env.observe, Trace.duration]; split <;> rfl
  | smp x => rfl
  | delay n => simp [Env.observe, Trace.duration]

/-- The reference clock moves by the sum of the waits (R12). -/
theorem replay_now (es : List Event) (s : State) : (replay es s).env.now = s.env.now + Trace.duration es := by
  induction es generalizing s with
  | nil => simp [Trace.duration]
  | cons e es ih =>
    have h := Trace.duration_append [e] es
    simp only [List.singleton_append] at h
    rw [replay_cons, ih, emit_env, observe_now, h, Nat.add_assoc]

theorem observe_samples (v : Env) (b : Block) (e : Event) : (v.observe b e).samples = v.samples + Trace.samples [e] := by
  cases e with
  | pin p l => cases p <;> simp only [Env.observe] <;> (try split) <;> rfl
  | ctlEn => rfl
  | dir d => cases d <;> rfl
  | drv x => simp only [Env.observe]; split <;> rfl
  | smp x => rfl
  | delay n => rfl

/-- The sample count moves by the number of samples. -/
theorem replay_samples (es : List Event) (s : State) :
    (replay es s).env.samples = s.env.samples + Trace.samples es := by
  induction es generalizing s with
  | nil => simp [Trace.samples]
  | cons e es ih =>
    have h := Trace.samples_append [e] es
    simp only [List.singleton_append] at h
    rw [replay_cons, ih, emit_env, observe_samples, h, Nat.add_assoc]

/-- Every event keeps the canonical form of the chip array. -/
theorem observe_deviceWf {v : Env} (h : deviceWf v.device) (b : Block) (e : Event) :
    deviceWf (v.observe b e).device := by
  have keep : ∀ x, deviceWf (v.device.driveLines x) := by
    intro x
    cases hd : v.device with
    | chip c => rw [hd] at h; exact h
    | _ => simp [Device.driveLines, deviceWf]
  cases e with
  | pin p l =>
    cases p with
    | we =>
      simp only [Env.observe]
      split
      · cases hd : v.device with
        | chip c => rw [hd] at h; exact RefChip.commit_wf h _ _ _ _
        | _ => simp [Device.commit, deviceWf]
      · exact h
    | _ => simp only [Env.observe]; (try split) <;> exact h
  | ctlEn => exact h
  | dir d =>
    cases d with
    | input => exact h
    | output => exact keep _
  | drv x =>
    simp only [Env.observe]; split
    · exact keep _
    · exact h
  | smp x =>
    simp only [Env.observe]
    cases hd : v.device with
    | chip c => rw [hd] at h; exact h
    | script l => cases l <;> simp [Device.advance, deviceWf]
    | _ => simp [Device.advance, deviceWf]
  | delay n =>
    simp only [Env.observe]
    cases hd : v.device with
    | chip c => rw [hd] at h; exact h
    | _ => simp [Device.expire, deviceWf]

theorem replay_deviceWf (es : List Event) {s : State} (h : deviceWf s.env.device) :
    deviceWf (replay es s).env.device := by
  induction es generalizing s with
  | nil => exact h
  | cons e es ih => exact ih (observe_deviceWf h _ _)

/-- What the latch IC holds, seen over a list of events. -/
def latchAfter (es : List Event) (s : State) : Addr16 × Addr16 := ((replay es s).env.sr, (replay es s).env.latch)

/-- A wait leaves the wires and the latch IC alone. -/
theorem replay_wait_latch (d : Word) (s : State) :
    (replay (Trace.wait d) s).env.sr = s.env.sr ∧ (replay (Trace.wait d) s).env.latch = s.env.latch ∧
    (replay (Trace.wait d) s).blk = s.blk := by
  unfold Trace.wait; split <;> simp [Env.observe]

/-- One bit goes into the shift stage (R70, R142). -/
theorem replay_shiftBit_latch (c : Cfg) (l : Level) (s : State) (hd : s.blk.driven = true) (hc : s.blk.clk = false) :
    (replay (Trace.shiftBit c l) s).env.sr = shiftIn s.env.sr l ∧
    (replay (Trace.shiftBit c l) s).env.latch = s.env.latch ∧
    (replay (Trace.shiftBit c l) s).blk = { s.blk with dat := l, clk := false } := by
  obtain ⟨w1, w2, w3⟩ := replay_wait_latch c.tShift (emit (.pin .clk true) (emit (.pin .dat l) s))
  obtain ⟨v1, v2, v3⟩ := replay_wait_latch c.tShift (emit (.pin .clk false)
    (replay (Trace.wait c.tShift) (emit (.pin .clk true) (emit (.pin .dat l) s))))
  have hs : replay (Trace.shiftBit c l) s = replay (Trace.wait c.tShift) (emit (.pin .clk false)
    (replay (Trace.wait c.tShift) (emit (.pin .clk true) (emit (.pin .dat l) s)))) := by
    simp [Trace.shiftBit, Trace.setPin, replay_append]
  rw [hs, v1, v2, v3]
  simp [w1, w2, Env.observe, risingEdge, hd, hc]

theorem shiftIn_getLsbD (sr : Addr16) (b : Level) (i : Nat) :
    (shiftIn sr b).getLsbD i = if i = 0 then b else decide (i < 16) && sr.getLsbD (i - 1) := by
  have h : (shiftIn sr b).getLsbD i = (sr.extractLsb' 0 15 ++ BitVec.ofBool b).getLsbD i := rfl
  rw [h, BitVec.getLsbD_append]
  rcases i with _ | i
  · simp
  · simp [BitVec.getLsbD_extractLsb', show (i + 1 < 16) = (i < 15) from propext (by omega)]

/-- Sixteen bits in a row replace the whole shift stage. -/
theorem shiftIn_sixteen (sr a : Addr16) : (Trace.addressBits a).foldl shiftIn sr = a := by
  refine BitVec.eq_of_getLsbD_eq fun i hi => ?_
  simp only [Trace.addressBits, List.map, List.foldl]
  interval_cases i <;> simp only [shiftIn_getLsbD] <;> simp

theorem replay_bits_latch (c : Cfg) (bs : List Level) (s : State) (hd : s.blk.driven = true) (hc : s.blk.clk = false) :
    (replay (bs.flatMap (Trace.shiftBit c)) s).env.sr = bs.foldl shiftIn s.env.sr ∧
    (replay (bs.flatMap (Trace.shiftBit c)) s).env.latch = s.env.latch ∧
    (replay (bs.flatMap (Trace.shiftBit c)) s).blk.driven = true ∧
    (replay (bs.flatMap (Trace.shiftBit c)) s).blk.clk = false ∧
    (replay (bs.flatMap (Trace.shiftBit c)) s).blk.lat = s.blk.lat := by
  induction bs generalizing s with
  | nil => simp [hd, hc]
  | cons l bs ih =>
    obtain ⟨h1, h2, h3⟩ := replay_shiftBit_latch c l s hd hc
    have := ih (replay (Trace.shiftBit c l) s) (by rw [h3]; exact hd) (by rw [h3])
    simp only [List.flatMap_cons, replay_append]
    rw [h1, h2] at this
    refine ⟨this.1, this.2.1, this.2.2.1, this.2.2.2.1, ?_⟩
    rw [this.2.2.2.2, h3]

/-- After `ShiftLatch(a)` on driven, idle pins the reference latch holds `a` (R70, R145). -/
theorem replay_shiftLatch_latch (c : Cfg) (a : Addr16) (s : State) (hd : s.blk.driven = true) (hc : s.blk.clk = false)
    (hl : s.blk.lat = false) : (replay (Trace.shiftLatch c a) s).env.latch = a := by
  obtain ⟨h1, h2, h3, h4, h5⟩ := replay_bits_latch c (Trace.addressBits a) s hd hc
  rw [shiftIn_sixteen] at h1
  simp only [Trace.shiftLatch, Trace.latchPulse, Trace.setPin, replay_append]
  obtain ⟨w1, w2, w3⟩ := replay_wait_latch c.tLatch (emit (.pin .lat true) (replay ((Trace.addressBits a).flatMap (Trace.shiftBit c)) s))
  simp only [replay_cons]
  rw [(replay_wait_latch _ _).2.1]
  rw [emit_env, w3, emit_blk]
  simp [Env.observe, risingEdge, w2, h1, h3, h5, hl, -replay_blk]

/-- Everything but a rising edge of WE in output direction leaves the bytes of a reference chip alone. -/
structure SameChip (c c' : RefChip) : Prop where
  kind     : c'.kind = c.kind
  capacity : c'.capacity = c.capacity
  mem      : c'.mem = c.mem

theorem observe_sameChip {v : Env} {c : RefChip} (h : v.device = .chip c) (b : Block) (e : Event)
    (hw : ∀ l, e = .pin .we l → (risingEdge b b.we l && (b.dir == .output)) = false) :
    ∃ c', (v.observe b e).device = .chip c' ∧ SameChip c c' := by
  have me : SameChip c c := ⟨rfl, rfl, rfl⟩
  cases e with
  | pin p l =>
    cases p with
    | we => exact ⟨c, by simp [Env.observe, hw l rfl, h], me⟩
    | clk => exact ⟨c, by simp only [Env.observe]; split <;> exact h, me⟩
    | lat => exact ⟨c, by simp only [Env.observe]; split <;> exact h, me⟩
    | dat => exact ⟨c, h, me⟩
    | oe => exact ⟨c, h, me⟩
  | ctlEn => exact ⟨c, h, me⟩
  | dir d =>
    cases d with
    | input => exact ⟨c, h, me⟩
    | output => exact ⟨c, by simp [Env.observe, Device.driveLines, h], me⟩
  | drv x => exact ⟨c, by simp only [Env.observe]; split <;> simp [Device.driveLines, h], me⟩
  | smp x => exact ⟨c, by simp [Env.observe, Device.advance, h], me⟩
  | delay n => exact ⟨c.expire (v.now + n), by simp [Env.observe, Device.expire, h], rfl, rfl, rfl⟩

end Sys2Proof.Machine
end

