-- ==== Sys2Proof/Laws/DataBus.lean ====
section
/-! SUPPORT. The Data Bus Driver: packing the lines gives the byte back (R66, R163), what a reading answers, and the phases
of the verify loop as replays (spec/44_write_verify_cycle.md R206, R207). -/

namespace Sys2Proof.Machine

/-- Packing the eight lines of a byte gives the byte (R66, R163). -/
@[simp] theorem packLines_getPin (v : Byte) : packLines (getPin v) = v := by
  refine BitVec.eq_of_getLsbD_eq fun i hi => ?_
  have h : (packLines (getPin v)).getLsbD i = (BitVec.ofBool (getPin v 7) ++ BitVec.ofBool (getPin v 6)
      ++ BitVec.ofBool (getPin v 5) ++ BitVec.ofBool (getPin v 4) ++ BitVec.ofBool (getPin v 3)
      ++ BitVec.ofBool (getPin v 2) ++ BitVec.ofBool (getPin v 1) ++ BitVec.ofBool (getPin v 0)).getLsbD i := rfl
  rw [h]
  interval_cases i <;> simp only [BitVec.getLsbD_append] <;> simp [getPin]

/-- What `readByte` answers in input direction: the environment's byte, and the sample in the trace. -/
theorem readByte_input {s : State} (h : s.blk.dir = .input) :
    readByte s = .next (sample s, emit (.smp (sample s)) s) := by
  simp [readByte, h]

theorem readByte_output {s : State} (h : s.blk.dir = .output) : readByte s = .refused .readByteWhileOutput := by
  simp [readByte, h]

/-- A sample depends on the wires alone. -/
theorem sample_congr {s s' : State} (h : SameWires s.blk s'.blk) (he : s.env = s'.env) : sample s = sample s' := by
  unfold sample; rw [he]; exact answer_congr h _

@[simp] theorem sample_atPhase (p : Phase) (s : State) : sample (atPhase p s) = sample s := by
  exact sample_congr ⟨rfl, rfl, rfl, rfl, rfl, rfl, rfl, rfl, rfl⟩ rfl

@[simp] theorem sample_setCurAddr (a : Addr16) (s : State) : sample (setCurAddr a s) = sample s := by
  exact sample_congr ⟨rfl, rfl, rfl, rfl, rfl, rfl, rfl, rfl, rfl⟩ rfl

/-- One verify reading in input direction (R206). -/
theorem verifyReading_input (T : ChipDesc) {s : State} (h : s.blk.dir = .input) :
    verifyReading T s =
      .next (sample (replay (Trace.setPin .oe false T.oe) s),
        replay (Trace.reading T (sample (replay (Trace.setPin .oe false T.oe) s))) s) := by
  have hd : (setPin .oe false T.oe s).blk.dir = .input := by simp [setPin_eq_replay, h]
  rw [verifyReading, readByte_input hd]
  simp [setPin_eq_replay, Trace.reading, replay_append]

/-- The registers after one verify reading. -/
@[simp] theorem absorbAll_reading (T : ChipDesc) (x : Byte) (b : Block) :
    absorbAll (Trace.reading T x) b = { b with oe := true } := by
  simp [Trace.reading, absorbAll_append]

/-- The registers after one verify iteration. -/
@[simp] theorem absorbAll_iteration (c : Cfg) (T : ChipDesc) (x y : Byte) (b : Block) :
    absorbAll (Trace.iteration c T x y) b = { b with oe := true } := by
  simp [Trace.iteration, absorbAll_append]

end Sys2Proof.Machine
end

