-- ==== Sys2Proof/Laws/Cycles.lean ====
section
/-! SUPPORT. The commands as replays of the event lists of Safety.lean: what the steps before the sample of READ, before
the verify loop of WRITE and of OPEN do, one verify iteration, the pre-checks. -/

namespace Sys2Proof.Machine

theorem SameWires.absorbAll {b b' : Block} (h : SameWires b b') (es : List Event) :
    SameWires (Machine.absorbAll es b) (Machine.absorbAll es b') := by
  induction es generalizing b b' with
  | nil => exact h
  | cons e es ih => exact ih (h.absorb e)

/-- A sample after a list of events depends on the wires alone. -/
theorem sample_replay_congr (es : List Event) {s s' : State} (h : SameWires s.blk s'.blk) (he : s.env = s'.env) :
    sample (replay es s) = sample (replay es s') :=
  sample_congr (by rw [replay_blk, replay_blk]; exact h.absorbAll es) (replay_env_congr es h he)

/-- The registers after the events of `SetAddress` (R147). -/
theorem absorbAll_setAddress (c : Cfg) (cur a : Addr16) (b : Block) :
    absorbAll (Trace.setAddress c cur a) b =
      { b with clk := if Trace.skip c cur a then b.clk else false
               dat := if Trace.skip c cur a then b.dat else a.getLsbD 0
               lat := if Trace.skip c cur a then b.lat else false } := by
  unfold Trace.setAddress; split <;> simp_all

/-! ### The pre-checks (R180, R200, R263) -/

theorem withSession_bound {s : State} {T : ChipDesc} (h : s.blk.isOpen = true) (hT : s.blk.chip = some T)
    (k : ChipDesc → Out State) : withSession s k = k T := by simp [withSession, h, hT]

theorem withSession_notOpen {s : State} (h : s.blk.isOpen = false) (k : ChipDesc → Out State) :
    withSession s k = .next (raise .notOpen s) := by simp [withSession, h]

theorem withSession_noChip {s : State} (h : s.blk.isOpen = true) (hT : s.blk.chip = none) (k : ChipDesc → Out State) :
    withSession s k = .next (raise .noChip s) := by simp [withSession, h, hT]

/-- A session is closed, or open without a chip, or open with one (R268). -/
theorem session_cases (b : Block) :
    (b.isOpen = true ∧ ∃ T, b.chip = some T) ∨ (b.isOpen = true ∧ b.chip = none) ∨ b.isOpen = false := by
  cases b.isOpen <;> cases b.chip <;> simp

/-! ### READ -/

/-- RD1 to RD4 (R181). -/
theorem readPhases_eq_replay (T : ChipDesc) (s : State) :
    readRD4 T (readRD3 (readRD2 T (readRD1 s)))
      = atPhase .rd4 (setCurAddr s.blk.aEff (replay (Trace.readLead s.cfg T s.blk.curAddr s.blk.aEff) s)) := by
  have hc : (readRD2 T (readRD1 s)).blk.aEff = s.blk.aEff := by
    simp [readRD2, readRD1, setPin_eq_replay, setDirectionInput]
  rw [readRD4, readRD3, hc]
  simp [setAddress_eq_replay, readRD2, readRD1, setPin_eq_replay, setDirectionInput, replay_atPhase, emit_atPhase,
    replay_setCurAddr, setCurAddr_atPhase, Trace.readLead, replay_append]

/-! ### WRITE -/

/-- WR1 to WR4 (R201 to R204). -/
theorem writePhases_eq_replay (T : ChipDesc) (s : State) :
    writeWR4 T (writeWR3 (writeWR2 (writeWR1 T s)))
      = atPhase .wr4 (setCurAddr s.blk.aEff (replay (Trace.setPin .oe true T.od
          ++ Trace.setAddress s.cfg s.blk.curAddr s.blk.aEff ++ [.dir .output, .drv s.blk.wval]
          ++ Trace.setPin .we false T.wp ++ Trace.setPin .we true T.wc) s)) := by
  have hc : (writeWR1 T s).blk.aEff = s.blk.aEff := by simp [writeWR1, setPin_eq_replay]
  have hv : ∀ t : State, (setDirectionOutput (atPhase .wr3 t)).blk.wval = t.blk.wval := fun t => rfl
  have hw : (writeWR2 (writeWR1 T s)).blk.wval = s.blk.wval := by
    simp [writeWR2, writeWR1, setAddress_eq_replay, setPin_eq_replay, absorbAll_setAddress]
  simp only [writeWR4, writeWR3, hv, hw]
  rw [writeWR2, hc]
  simp [writeWR1, setAddress_eq_replay, setPin_eq_replay, setDirectionOutput, writeByte, replay_atPhase, emit_atPhase,
    replay_setCurAddr, emit_setCurAddr, replay_append, setCurAddr_atPhase]

/-- WR6d writes the registers that `afterTest` names (R208, R209). -/
theorem writeWR6d_eq (s : State) : writeWR6d s = { s with blk := afterTest s.cfg s.blk } := by
  unfold writeWR6d verified verifyFailed afterTest
  simp only [atPhase_blk, Bool.and_eq_true, beq_iff_eq, atPhase_cfg]
  split
  · rfl
  · cases h : s.cfg.verifyPolicy
    · simp; rfl
    · simp only [reduceCtorEq, if_false]
      by_cases hk : s.blk.iter + 1 = s.cfg.retryCap
      · simp only [hk, if_true]; rw [← hk]; rfl
      · simp only [hk, if_false]; rfl

/-- `afterTest` does not look at the phase. -/
theorem afterTest_seq (c : Cfg) (b : Block) (p : Phase) : afterTest c { b with seq := p } = afterTest c b := by
  unfold afterTest; simp

theorem afterTest_success {c : Cfg} {b : Block} (h : b.r1 = b.r2 ∧ b.r1 = b.wval) :
    afterTest c b = { b with result := zext9 b.r1, code := .ok, seq := .idle } := by
  unfold afterTest; rw [if_pos h]

theorem afterTest_unbounded {c : Cfg} {b : Block} (h : ¬ (b.r1 = b.r2 ∧ b.r1 = b.wval))
    (hp : c.verifyPolicy = .unbounded) : afterTest c b = { b with seq := .wr6a } := by
  unfold afterTest; rw [if_neg h, if_pos hp]

theorem afterTest_spent {c : Cfg} {b : Block} (h : ¬ (b.r1 = b.r2 ∧ b.r1 = b.wval)) (hp : c.verifyPolicy = .bounded)
    (hc : b.iter + 1 = c.retryCap) :
    afterTest c b = { b with iter := b.iter + 1, result := 0x100, code := .writeFailed, seq := .idle } := by
  unfold afterTest; rw [if_neg h, if_neg (by simp [hp]), if_pos hc]

theorem afterTest_again {c : Cfg} {b : Block} (h : ¬ (b.r1 = b.r2 ∧ b.r1 = b.wval)) (hp : c.verifyPolicy = .bounded)
    (hc : b.iter + 1 ≠ c.retryCap) : afterTest c b = { b with iter := b.iter + 1, seq := .wr6a } := by
  unfold afterTest; rw [if_neg h, if_neg (by simp [hp]), if_neg hc]

/-- Everything `afterTest` leaves alone. -/
theorem afterTest_keeps (c : Cfg) (b : Block) :
    (afterTest c b).isOpen = b.isOpen ∧ (afterTest c b).chip = b.chip ∧ (afterTest c b).stg = b.stg ∧
    (afterTest c b).addrReg = b.addrReg ∧ (afterTest c b).curAddr = b.curAddr ∧ (afterTest c b).dir = b.dir ∧
    (afterTest c b).clk = b.clk ∧ (afterTest c b).dat = b.dat ∧ (afterTest c b).lat = b.lat ∧
    (afterTest c b).oe = b.oe ∧ (afterTest c b).we = b.we ∧ (afterTest c b).driven = b.driven ∧
    (afterTest c b).dout = b.dout ∧ (afterTest c b).aEff = b.aEff ∧ (afterTest c b).wval = b.wval ∧
    (afterTest c b).r1 = b.r1 ∧ (afterTest c b).r2 = b.r2 := by
  unfold afterTest
  split
  · simp
  split
  · simp
  split <;> simp

/-- How an iteration ends: success, the spent budget, or another iteration (R208, R209). -/
theorem afterTest_cases (c : Cfg) (b : Block) :
    ((afterTest c b).seq = .idle ∧ (afterTest c b).code = .ok ∧ (afterTest c b).result = zext9 b.r1 ∧
      b.r1 = b.r2 ∧ b.r1 = b.wval) ∨
    ((afterTest c b).seq = .idle ∧ (afterTest c b).code = .writeFailed ∧ (afterTest c b).result = 0x100) ∨
    (afterTest c b).seq = .wr6a := by
  unfold afterTest
  split
  · rename_i h; exact .inl ⟨rfl, rfl, rfl, h⟩
  split
  · simp
  split <;> simp

/-- One verify iteration in input direction (R206 to R209). -/
theorem writeFromWR6a_eq (T : ChipDesc) (s : State) (hd : s.blk.dir = .input) :
    let x := sample (replay (Trace.setPin .oe false T.oe) s)
    let y := sample (replay (Trace.reading T x ++ Trace.setPin .oe false T.oe) s)
    writeFromWR6a T s = .next
      { s with
        blk := afterTest s.cfg { s.blk with oe := true, r1 := x, r2 := y }
        env := (replay (Trace.iteration s.cfg T x y) s).env
        trace := s.trace ++ Trace.iteration s.cfg T x y } := by
  intro x y
  have hx : sample (replay (Trace.setPin .oe false T.oe) (atPhase .wr6a s)) = x := by
    rw [replay_atPhase, sample_atPhase]
  have h1 : writeWR6a T s = .next { replay (Trace.reading T x) (atPhase .wr6a s) with
      blk := { (replay (Trace.reading T x) (atPhase .wr6a s)).blk with r1 := x } } := by
    rw [writeWR6a, verifyReading_input T (by simpa using hd), hx]; rfl
  rw [writeFromWR6a, h1, andThen_next, writeFromWR6b, writeWR6b]
  set s1 : State := { replay (Trace.reading T x) (atPhase .wr6a s) with
      blk := { (replay (Trace.reading T x) (atPhase .wr6a s)).blk with r1 := x } } with hs1
  have hb1 : s1.blk = { s.blk with seq := .wr6a, oe := true, r1 := x } := by simp [hs1]
  have he1 : s1.env = (replay (Trace.reading T x) s).env := by simp [hs1, replay_atPhase]
  have hw : SameWires s1.blk (replay (Trace.reading T x) s).blk := by
    rw [hb1, replay_blk, absorbAll_reading]
    exact ⟨rfl, rfl, rfl, rfl, rfl, rfl, rfl, rfl, rfl⟩
  have hy : sample (replay (Trace.setPin .oe false T.oe) (atPhase .wr6b s1)) = y := by
    rw [replay_atPhase, sample_atPhase, sample_replay_congr _ hw he1, ← replay_append]
  rw [verifyReading_input T (by simp [hb1, hd]), hy]
  simp only [andThen_next, writeFromWR6c, writeFromWR6d, writeWR6d_eq, writeWR6c, delay_eq_replay]
  rw [← afterTest_seq s.cfg { s.blk with oe := true, r1 := x, r2 := y } .wr6c]
  congr 1
  apply State.eq_of_fields
  · simp [hs1]
  · simp [hb1]; simp [hs1]
  · simp [replay_atPhase, Trace.iteration, replay_append]
    rw [show s1.cfg = s.cfg by simp [hs1]]
    apply replay_env_congr
    · simp [hb1]; exact ⟨rfl, rfl, rfl, rfl, rfl, rfl, rfl, rfl, rfl⟩
    · simp
      exact replay_env_congr _ hw he1
  · simp [hs1]
  · simp [hs1]
  · simp [hs1, Trace.iteration]

/-! ### OPEN -/

/-- OP1 to OP4 (R231). -/
theorem openPhases_eq_replay (s : State) :
    openOP4 (openOP3 (openOP2 (openOP1 s)))
      = atPhase (.op4 .latch) (setCurAddr 0 (replay (Trace.openCmd s.cfg) s)) := by
  simp [openOP4, openOP3, openOP2, openOP1, shiftLatch_eq_replay, setPin_eq_replay, setDirectionInput, replay_atPhase,
    emit_atPhase, replay_setCurAddr, Trace.openCmd, Trace.setPin, Trace.wait, setCurAddr_atPhase]

/-- The registers after the events of OPEN (R231). -/
theorem absorbAll_openCmd (c : Cfg) (b : Block) : absorbAll (Trace.openCmd c) b =
    { b with dir := .input, we := true, oe := true, lat := false, clk := false, dat := false, driven := true } := by
  simp [Trace.openCmd]

/-! ### The external latch over the commands -/

/-- A list of events without a rise of LAT leaves the external latch alone (R70). -/
theorem replay_latch_keep (es : List Event) (s : State) (h : Trace.writes .lat true es = 0) :
    (replay es s).env.latch = s.env.latch := by
  induction es generalizing s with
  | nil => rfl
  | cons e es ih =>
    simp only [Trace.writes_cons] at h
    rw [replay_cons, ih _ (by omega)]
    cases e with
    | pin p l =>
      cases p <;> simp only [emit_env, Env.observe] <;> try (split <;> rfl)
      cases l
      · simp [risingEdge]
      · simp at h
    | dir d => cases d <;> rfl
    | drv x => simp only [emit_env, Env.observe]; split <;> rfl
    | _ => rfl

/-- No event switches the drivers off (R23). -/
theorem absorbAll_driven (es : List Event) (b : Block) (h : b.driven = true) : (absorbAll es b).driven = true := by
  induction es generalizing b with
  | nil => exact h
  | cons e es ih =>
    apply ih
    cases e with
    | pin p l => cases p <;> exact h
    | ctlEn => rfl
    | _ => exact h

/-- `SetAddress` keeps the external latch at the cached address (R149). -/
theorem replay_setAddress_latch (c : Cfg) (cur a : Addr16) (s : State) (hd : s.blk.driven = true)
    (hc : s.blk.clk = false) (hl : s.blk.lat = false) (hcur : s.env.latch = cur) :
    (replay (Trace.setAddress c cur a) s).env.latch = a := by
  unfold Trace.setAddress
  split
  · rename_i h
    simp [Trace.skip] at h
    simp [hcur, h.2]
  · exact replay_shiftLatch_latch c a s hd hc hl

/-- OPEN leaves the external latch at 0, whatever it held (R148, R304). -/
theorem replay_openCmd_latch (s : State) : (replay (Trace.openCmd s.cfg) s).env.latch = 0 := by
  rw [Trace.openCmd, replay_append]
  apply replay_shiftLatch_latch <;> simp

end Sys2Proof.Machine
end

