-- ==== Sys2Proof/Laws/Chip.lean ====
section
/-! SUPPORT. A reference chip over a list of events (spec/20_memory.md R71 to R73): what keeps its bytes, what NEVER and a
settled DELAYED write answer, what a rise of WE stores. -/

namespace Sys2Proof.Machine

theorem SameChip.trans {c c' c'' : RefChip} (h : SameChip c c') (k : SameChip c' c'') : SameChip c c'' :=
  ⟨k.kind.trans h.kind, k.capacity.trans h.capacity, k.mem.trans h.mem⟩

/-- Without a rise of WE no byte of the chip changes. -/
theorem replay_sameChip (es : List Event) {s : State} {c : RefChip} (h : s.env.device = .chip c)
    (hw : Trace.writes .we true es = 0) : ∃ c', (replay es s).env.device = .chip c' ∧ SameChip c c' := by
  induction es generalizing s c with
  | nil => exact ⟨c, h, rfl, rfl, rfl⟩
  | cons e es ih =>
    simp only [Trace.writes_cons] at hw
    obtain ⟨c1, h1, k1⟩ := observe_sameChip h s.blk e (by
      intro l hl; subst hl
      cases l
      · simp [risingEdge]
      · simp at hw)
    obtain ⟨c2, h2, k2⟩ := ih (s := emit e s) h1 (by omega)
    exact ⟨c2, h2, k1.trans k2⟩

/-- Without a rise of WE a chip with no write under way has none afterwards. -/
theorem replay_noShadows (es : List Event) {s : State} {c : RefChip} (h : s.env.device = .chip c) (hs : c.shadows = [])
    (hw : Trace.writes .we true es = 0) :
    ∃ c', (replay es s).env.device = .chip c' ∧ c'.shadows = [] ∧ SameChip c c' := by
  induction es generalizing s c with
  | nil => exact ⟨c, h, hs, rfl, rfl, rfl⟩
  | cons e es ih =>
    simp only [Trace.writes_cons] at hw
    have step : ∃ c', (emit e s).env.device = .chip c' ∧ c'.shadows = [] ∧ SameChip c c' := by
      cases e with
      | pin p l =>
        cases p
        case we =>
          cases l
          · exact ⟨c, by simp [Env.observe, risingEdge, h], hs, rfl, rfl, rfl⟩
          · simp at hw
        all_goals exact ⟨c, by simp only [emit_env, Env.observe]; (try split) <;> exact h, hs, rfl, rfl, rfl⟩
      | ctlEn => exact ⟨c, h, hs, rfl, rfl, rfl⟩
      | dir d => exact ⟨c, by cases d <;> simp [Env.observe, h, Device.driveLines], hs, rfl, rfl, rfl⟩
      | drv x =>
        exact ⟨c, by simp only [emit_env, Env.observe]; split <;> simp [h, Device.driveLines], hs, rfl, rfl, rfl⟩
      | smp x => exact ⟨c, by simp [Env.observe, h, Device.advance], hs, rfl, rfl, rfl⟩
      | delay n =>
        exact ⟨c.expire (s.env.now + n), by simp [Env.observe, h, Device.expire], by simp [RefChip.expire, hs],
          rfl, rfl, rfl⟩
    obtain ⟨c', h', k', m'⟩ := step
    obtain ⟨c2, a, b, d⟩ := ih h' k' (by omega)
    exact ⟨c2, a, b, m'.trans d⟩

/-- NEVER stays as it is over any events (R73). -/
theorem replay_never (es : List Event) {s : State} {c : RefChip} (h : s.env.device = .chip c) (hk : c.kind = .never)
    (hs : c.shadows = []) : (replay es s).env.device = .chip c := by
  induction es generalizing s with
  | nil => exact h
  | cons e es ih =>
    apply ih
    cases e with
    | pin p l =>
      cases p <;> simp only [emit_env, Env.observe] <;> (try split) <;>
        simp [h, Device.commit, RefChip.commit, hk]
    | ctlEn => exact h
    | dir d => cases d <;> simp [Env.observe, h, Device.driveLines]
    | drv x => simp only [emit_env, Env.observe]; split <;> simp [h, Device.driveLines]
    | smp x => simp [Env.observe, h, Device.advance]
    | delay n =>
      simp only [emit_env, Env.observe, h, Device.expire, RefChip.expire]
      have : c.shadows.filter (fun x => decide (s.env.now + n < x.visibleAt)) = c.shadows := by rw [hs]; rfl
      rw [this]

/-- What a reference chip answers while OE is low on a driven pin and the bus is input (R71). -/
theorem sample_chip {s : State} {c : RefChip} (h : s.env.device = .chip c) (hd : s.blk.driven = true)
    (ho : s.blk.oe = false) (hi : s.blk.dir = .input) : sample s = c.output s.env.now s.env.latch := by
  simp [sample, Env.answer, h, hd, ho, hi]

theorem output_noShadows {c : RefChip} (hs : c.shadows = []) (n : Nat) (a : Addr16) :
    c.output n a = c.mem.read (c.index a) := by
  simp [RefChip.output, hs]

/-- From time `now` on the chip shows `v` at the address `a`: it holds it, and no older content is still visible. -/
structure Shows (c : RefChip) (now : Nat) (a : Addr16) (v : Byte) : Prop where
  held    : c.mem.read (c.index a) = v
  settled : ∀ h ∈ c.shadows, h.addr = c.index a → h.visibleAt ≤ now

theorem Shows.output {c : RefChip} {now : Nat} {a : Addr16} {v : Byte} (h : Shows c now a v) : c.output now a = v := by
  unfold RefChip.output
  have : c.shadows.find? (fun h => h.addr == c.index a && decide (now < h.visibleAt)) = none := by
    rw [List.find?_eq_none]
    intro x hx
    simp only [Bool.and_eq_true, beq_iff_eq, decide_eq_true_eq, not_and, not_lt]
    exact h.settled x hx
  rw [this]; exact h.held

theorem emit_shows {s : State} {c : RefChip} {a : Addr16} {v : Byte} (hd : s.env.device = .chip c)
    (h : Shows c s.env.now a v) (e : Event) (he : e ≠ .pin .we true) :
    ∃ c', (emit e s).env.device = .chip c' ∧ Shows c' (emit e s).env.now a v ∧ SameChip c c' := by
  have me : SameChip c c := ⟨rfl, rfl, rfl⟩
  cases e with
  | pin p l =>
    cases p
    case we =>
      cases l
      · exact ⟨c, by simp [Env.observe, risingEdge, hd], by simpa [Env.observe, risingEdge] using h, me⟩
      · exact absurd rfl he
    all_goals
      refine ⟨c, ?_, ?_, me⟩
      · simp only [emit_env, Env.observe]; (try split) <;> exact hd
      · simp only [emit_env, Env.observe]; (try split) <;> exact h
  | ctlEn => exact ⟨c, hd, h, me⟩
  | dir d =>
    cases d <;> exact ⟨c, by simp [Env.observe, hd, Device.driveLines], by simpa [Env.observe] using h, me⟩
  | drv x =>
    refine ⟨c, ?_, ?_, me⟩
    · simp only [emit_env, Env.observe]; split <;> simp [hd, Device.driveLines]
    · simp only [emit_env, Env.observe]; split <;> exact h
  | smp x => exact ⟨c, by simp [Env.observe, hd, Device.advance], h, me⟩
  | delay n =>
    refine ⟨c.expire (s.env.now + n), by simp [Env.observe, hd, Device.expire], ⟨h.held, ?_⟩, ⟨rfl, rfl, rfl⟩⟩
    intro x hx hxa
    have := h.settled x (List.mem_of_mem_filter hx) hxa
    show _ ≤ s.env.now + n
    omega

/-- A byte the chip shows stays shown until the next rise of WE. -/
theorem replay_shows (es : List Event) {s : State} {c : RefChip} {a : Addr16} {v : Byte} (hd : s.env.device = .chip c)
    (h : Shows c s.env.now a v) (hw : Trace.writes .we true es = 0) :
    ∃ c', (replay es s).env.device = .chip c' ∧ Shows c' (replay es s).env.now a v ∧ SameChip c c' := by
  induction es generalizing s c with
  | nil => exact ⟨c, hd, h, rfl, rfl, rfl⟩
  | cons e es ih =>
    simp only [Trace.writes_cons] at hw
    obtain ⟨c1, h1, h2, h3⟩ := emit_shows hd h e (by intro he; subst he; simp at hw)
    obtain ⟨c2, k1, k2, k3⟩ := ih h1 h2 (by omega)
    exact ⟨c2, k1, k2, h3.trans k3⟩

/-- Storing keeps the kind and the size of the chip. -/
theorem RefChip.commit_same (c : RefChip) (now wc : Nat) (a : Addr16) (v : Byte) :
    (c.commit now wc a v).kind = c.kind ∧ (c.commit now wc a v).capacity = c.capacity := by
  unfold RefChip.commit; split <;> exact ⟨rfl, rfl⟩

/-- IDEAL and DELAYED hold the byte at the address (R71, R72). -/
theorem RefChip.commit_read_same {c : RefChip} (h : c.mem.wf) (hk : c.kind = .ideal ∨ c.kind = .delayed) (now wc : Nat)
    (a : Addr16) (v : Byte) : (c.commit now wc a v).mem.read (c.index a) = v := by
  unfold RefChip.commit
  rcases hk with hk | hk <;> simp only [hk] <;> exact Memory.read_write_same h _ _

/-- A committed byte is shown `wc` later (R72), on IDEAL at once. -/
theorem RefChip.commit_settled {c : RefChip} (hk : c.kind = .ideal ∨ c.kind = .delayed)
    (hs : c.kind = .ideal → c.shadows = []) (now wc : Nat) (a : Addr16) (v : Byte) :
    ∀ h ∈ (c.commit now wc a v).shadows, h.addr = c.index a → h.visibleAt ≤ now + wc := by
  unfold RefChip.commit
  rcases hk with hk | hk
  · simp only [hk]; rw [hs hk]; intro x hx; cases hx
  · simp only [hk]
    intro x hx hxa
    rcases List.mem_cons.mp hx with rfl | hx
    · exact le_refl _
    · have := (List.mem_filter.mp hx).2
      simp [hxa] at this

end Sys2Proof.Machine
end

