-- ==== Sys2Proof/Laws/PerInstr.lean ====
section
/-! SUPPORT. One lemma per constructor of `Instr`: the word of a command meets the command's row of the opcode map (R92)
and is not in R94's list of illegal words. -/

namespace Sys2Proof.Laws.EncodeMatches

/-- The word of `i` meets its `mask` and `match` columns and is well formed. -/
def Statement (i : Instr) : Prop := encode i &&& maskBits i = matchBits i ∧ wordWf (encode i) = true

theorem openCmd : Statement .openCmd := by unfold Statement; decide

theorem closeCmd : Statement .closeCmd := by unfold Statement; decide

theorem setchip : Statement .setchip := by unfold Statement; decide

theorem read : Statement .read := by unfold Statement; decide

/-- The value of a WRITE word (R97: `(v << 8) | 0x05`). -/
theorem encode_write_toNat (v : Byte) : (encode (.write v)).toNat = v.toNat * 256 + 5 := by
  have hv := v.isLt
  simp only [encode, cmd32, BitVec.toNat_append]
  rw [Nat.shiftLeft_eq, Nat.shiftLeft_eq]
  simp
  rw [← Nat.shiftLeft_eq _ 8, ← Nat.shiftLeft_add_eq_or_of_lt (by decide), Nat.shiftLeft_eq]

theorem write (data : Byte) : Statement (.write data) := by
  have hv := data.isLt
  constructor
  · refine BitVec.eq_of_getLsbD_eq fun i hi => ?_
    simp only [encode, cmd32, maskBits, matchBits, BitVec.getLsbD_and, BitVec.getLsbD_append]
    interval_cases i <;> simp
  · simp only [wordWf, illegalWord, encode_write_toNat]
    have h1 : (data.toNat * 256 + 5) % 256 = 5 := by omega
    have h2 : (data.toNat * 256 + 5) / 65536 = 0 := by omega
    simp [h1, h2]

end Sys2Proof.Laws.EncodeMatches
end

