-- ==== Sys2Proof/Laws/Steps.lean ====
section
/-! SUPPORT. The step: what a command or a resumed phase can do to the configuration, the host's inputs, the replies and
the trace, from every phase; a pending reset; the contention of the data bus over a list of events. -/

namespace Sys2Proof

open Machine

theorem runs_zero (s : State) : runs 0 s = .next s := rfl

theorem runs_succ_of_step {s t : State} (h : step s = .next t) (k : Nat) : runs (k + 1) s = runs k t := by
  show andThen (step s) (runs k) = _
  rw [h, andThen_next]

namespace Machine

/-- With no reset pending nothing is cut (R302). -/
theorem cutByReset_none {s : State} (h : ∀ n rest, s.host ≠ .reset n :: rest) (t : State) : cutByReset s t = t := by
  unfold cutByReset
  split
  · rename_i n r hq; exact absurd hq (h n r)
  · rfl

/-- A reset that falls within the events of the step (R302). -/
theorem cutByReset_at {s t : State} {n : Nat} {rest : List HostInput} (h : s.host = .reset n :: rest)
    (hn : n < (newEvents s t).length) :
    cutByReset s t = resetBlock { replay ((newEvents s t).take n) s with host := rest } := by
  unfold cutByReset; rw [h]; exact if_pos hn

/-- A reset that comes later. -/
theorem cutByReset_later {s t : State} {n : Nat} {rest : List HostInput} (h : s.host = .reset n :: rest)
    (hn : ¬ n < (newEvents s t).length) :
    cutByReset s t = { t with host := .reset (n - (newEvents s t).length) :: rest } := by
  unfold cutByReset; rw [h]; exact if_neg hn

theorem newEvents_of_trace {s t : State} {es : List Event} (h : t.trace = s.trace ++ es) : newEvents s t = es := by
  simp [newEvents, h]

/-- `t` is `s` with events added and registers changed: the configuration, the host's inputs and the replies stand. -/
structure Prolongs (s t : State) : Prop where
  cfg     : t.cfg = s.cfg
  host    : t.host = s.host
  replies : t.replies = s.replies
  trace   : ∃ es, t.trace = s.trace ++ es

namespace Prolongs

theorem refl (s : State) : Prolongs s s := ⟨rfl, rfl, rfl, [], by simp⟩

theorem trans {s t u : State} (h : Prolongs s t) (k : Prolongs t u) : Prolongs s u := by
  obtain ⟨a, b, c, es, d⟩ := h
  obtain ⟨a', b', c', es', d'⟩ := k
  exact ⟨a'.trans a, b'.trans b, c'.trans c, es ++ es', by rw [d', d, List.append_assoc]⟩

theorem replay (es : List Event) (s : State) : Prolongs s (replay es s) := ⟨by simp, by simp, by simp, es, by simp⟩
theorem emit (e : Event) (s : State) : Prolongs s (emit e s) := ⟨rfl, rfl, rfl, [e], rfl⟩
theorem withBlk (s : State) (b : Block) : Prolongs s { s with blk := b } := ⟨rfl, rfl, rfl, [], by simp⟩

theorem setPin (p : Pin) (l : Level) (d : Word) (s : State) : Prolongs s (setPin p l d s) := by
  rw [setPin_eq_replay]; exact replay _ _

theorem delay (d : Word) (s : State) : Prolongs s (delay d s) := by
  rw [delay_eq_replay]; exact replay _ _

theorem shiftBits (lab : Nat → Phase) (x : Byte) (n : Nat) (s : State) : Prolongs s (shiftBits lab x n s) := by
  induction n generalizing s with
  | zero => exact refl s
  | succ n ih => exact ((withBlk s _).trans ((setPin _ _ _ _).trans ((setPin _ _ _ _).trans (setPin _ _ _ _)))).trans (ih _)

theorem latchPulse (o : AddrPhase → Phase) (s : State) : Prolongs s (latchPulse o s) :=
  (withBlk s _).trans ((setPin _ _ _ _).trans (setPin _ _ _ _))

theorem shiftLatch (o : AddrPhase → Phase) (a : Addr16) (s : State) : Prolongs s (shiftLatch o a s) :=
  (shiftBits _ _ _ _).trans ((shiftBits _ _ _ _).trans (latchPulse _ _))

theorem shiftFrom (o : AddrPhase → Phase) (a : Addr16) (i : Fin 16) (s : State) : Prolongs s (shiftFrom o a i s) := by
  unfold Machine.shiftFrom
  refine trans ?_ (latchPulse _ _)
  split
  · exact (shiftBits _ _ _ _).trans (shiftBits _ _ _ _)
  · exact shiftBits _ _ _ _

theorem setAddress (o : AddrPhase → Phase) (a : Addr16) (s : State) : Prolongs s (setAddress o a s) := by
  unfold Machine.setAddress
  refine trans ?_ (withBlk _ _)
  split
  · exact withBlk _ _
  · exact (withBlk _ _).trans (shiftLatch _ _ _)

theorem setAddressFrom (o : AddrPhase → Phase) (a : Addr16) (sub : AddrPhase) (s : State) :
    Prolongs s (setAddressFrom o a sub s) := by
  cases sub
  · exact setAddress _ _ _
  · exact (shiftFrom _ _ _ _).trans (withBlk _ _)
  · exact (latchPulse _ _).trans (withBlk _ _)

theorem readByte {s : State} {r : Byte × State} (h : readByte s = .next r) : Prolongs s r.2 := by
  unfold Machine.readByte at h
  split at h
  · cases h; exact emit _ _
  · cases h

theorem verifyReading {T : ChipDesc} {s : State} {r : Byte × State} (h : verifyReading T s = .next r) :
    Prolongs s r.2 := by
  obtain ⟨q, hq, hr⟩ := andThen_eq_next.mp h
  cases hr
  exact (setPin _ _ _ _).trans ((readByte hq).trans (setPin _ _ _ _))

end Prolongs

/-- Wherever the operation answers a next state, it prolongs `s`. -/
def OnlyProlongs (s : State) (o : Out State) : Prop := ∀ t, o = .next t → Prolongs s t

namespace OnlyProlongs

open Prolongs

theorem next {s t : State} (h : Prolongs s t) : OnlyProlongs s (.next t) := fun u hu => by cases hu; exact h

theorem after {s t : State} {o : Out State} (h : Prolongs s t) (k : OnlyProlongs t o) : OnlyProlongs s o :=
  fun u hu => h.trans (k u hu)

theorem readFromRD5 (s : State) : OnlyProlongs s (readFromRD5 s) := by
  intro t h
  obtain ⟨q, hq, hr⟩ := andThen_eq_next.mp h
  cases hr
  exact (withBlk s _).trans ((Prolongs.readByte hq).trans (withBlk _ _))

theorem readFromRD4 (T : ChipDesc) (s : State) : OnlyProlongs s (readFromRD4 T s) :=
  after ((withBlk s _).trans (Prolongs.setPin _ _ _ _)) (readFromRD5 _)
theorem readFromRD3 (T : ChipDesc) (s : State) : OnlyProlongs s (readFromRD3 T s) :=
  after (Prolongs.setAddress _ _ _) (readFromRD4 T _)
theorem readFromRD2 (T : ChipDesc) (s : State) : OnlyProlongs s (readFromRD2 T s) :=
  after ((withBlk s _).trans (Prolongs.setPin _ _ _ _)) (readFromRD3 T _)
theorem readFromRD1 (T : ChipDesc) (s : State) : OnlyProlongs s (readFromRD1 T s) :=
  after ((withBlk s _).trans (Prolongs.emit _ _)) (readFromRD2 T _)
theorem readResumeRD3 (T : ChipDesc) (sub : AddrPhase) (s : State) : OnlyProlongs s (readResumeRD3 T sub s) :=
  after (Prolongs.setAddressFrom _ _ _ _) (readFromRD4 T _)

theorem writeFromWR6d (s : State) : OnlyProlongs s (writeFromWR6d s) := by
  refine next ?_
  rw [writeWR6d_eq]; exact withBlk _ _
theorem writeFromWR6c (s : State) : OnlyProlongs s (writeFromWR6c s) :=
  after ((withBlk s _).trans (Prolongs.delay _ _)) (writeFromWR6d _)
theorem writeFromWR6b (T : ChipDesc) (s : State) : OnlyProlongs s (writeFromWR6b T s) := by
  intro t h
  obtain ⟨q, hq, hr⟩ := andThen_eq_next.mp h
  obtain ⟨q', hq', hr'⟩ := andThen_eq_next.mp hq
  cases hr'
  exact ((withBlk s _).trans ((Prolongs.verifyReading hq').trans (withBlk _ _))).trans (writeFromWR6c _ t hr)
theorem writeFromWR6a (T : ChipDesc) (s : State) : OnlyProlongs s (writeFromWR6a T s) := by
  intro t h
  obtain ⟨q, hq, hr⟩ := andThen_eq_next.mp h
  obtain ⟨q', hq', hr'⟩ := andThen_eq_next.mp hq
  cases hr'
  exact ((withBlk s _).trans ((Prolongs.verifyReading hq').trans (withBlk _ _))).trans (writeFromWR6b T _ t hr)
theorem writeFromWR5 (T : ChipDesc) (s : State) : OnlyProlongs s (writeFromWR5 T s) :=
  after ((withBlk s _).trans ((Prolongs.emit _ _).trans (withBlk _ _))) (writeFromWR6a T _)
theorem writeFromWR4 (T : ChipDesc) (s : State) : OnlyProlongs s (writeFromWR4 T s) :=
  after ((withBlk s _).trans ((Prolongs.setPin _ _ _ _).trans (Prolongs.setPin _ _ _ _))) (writeFromWR5 T _)
theorem writeFromWR3 (T : ChipDesc) (s : State) : OnlyProlongs s (writeFromWR3 T s) :=
  after ((withBlk s _).trans ((Prolongs.emit _ _).trans (Prolongs.emit _ _))) (writeFromWR4 T _)
theorem writeFromWR2 (T : ChipDesc) (s : State) : OnlyProlongs s (writeFromWR2 T s) :=
  after (Prolongs.setAddress _ _ _) (writeFromWR3 T _)
theorem writeFromWR1 (T : ChipDesc) (s : State) : OnlyProlongs s (writeFromWR1 T s) :=
  after ((withBlk s _).trans (Prolongs.setPin _ _ _ _)) (writeFromWR2 T _)
theorem writeResumeWR2 (T : ChipDesc) (sub : AddrPhase) (s : State) : OnlyProlongs s (writeResumeWR2 T sub s) :=
  after (Prolongs.setAddressFrom _ _ _ _) (writeFromWR3 T _)

theorem openDone {s t : State} (h : Prolongs s t) : OnlyProlongs s (.next (openDone t)) :=
  next (h.trans ((withBlk _ _).trans (withBlk _ _)))
theorem openFromOP4 (s : State) : OnlyProlongs s (openFromOP4 s) :=
  openDone ((withBlk s _).trans ((withBlk _ _).trans (Prolongs.shiftLatch _ _ _)))
theorem openFromOP3 (s : State) : OnlyProlongs s (openFromOP3 s) :=
  after ((withBlk s _).trans (Prolongs.emit _ _)) (openFromOP4 _)
theorem openFromOP2 (s : State) : OnlyProlongs s (openFromOP2 s) :=
  after ((withBlk s _).trans ((Prolongs.setPin _ _ _ _).trans ((Prolongs.setPin _ _ _ _).trans
    ((Prolongs.setPin _ _ _ _).trans ((Prolongs.setPin _ _ _ _).trans (Prolongs.setPin _ _ _ _)))))) (openFromOP3 _)
theorem openFromOP1 (s : State) : OnlyProlongs s (openFromOP1 s) :=
  after ((withBlk s _).trans (Prolongs.emit _ _)) (openFromOP2 _)
theorem openResumeOP4 (sub : AddrPhase) (s : State) : OnlyProlongs s (openResumeOP4 sub s) := by
  cases sub
  · exact openFromOP4 s
  · exact openDone (Prolongs.shiftFrom _ _ _ _)
  · exact openDone (Prolongs.latchPulse _ _)

theorem closeFromCL1 (s : State) : OnlyProlongs s (closeFromCL1 s) :=
  next ((withBlk s _).trans ((Prolongs.emit _ _).trans ((withBlk _ _).trans (withBlk _ _))))

theorem setchipFromSC1 (s : State) : OnlyProlongs s (setchipFromSC1 s) := next ((withBlk s _).trans (withBlk _ _))

theorem withBound (s : State) (k : ChipDesc → Out State) (h : ∀ T, OnlyProlongs s (k T)) :
    OnlyProlongs s (withBound s k) := by
  unfold Machine.withBound
  split
  · exact h _
  · intro t ht; cases ht

theorem withSession (s : State) (k : ChipDesc → Out State) (h : ∀ T, OnlyProlongs s (k T)) :
    OnlyProlongs s (withSession s k) := by
  unfold Machine.withSession
  split
  · split
    · exact h _
    · exact next (withBlk _ _)
  · exact next (withBlk _ _)

/-- From every phase the sequencer can be in. -/
theorem resume (s : State) : OnlyProlongs s (resume s) := by
  unfold Machine.resume
  split
  · exact next (refl s)
  · exact openFromOP1 s
  · exact openFromOP2 s
  · exact openFromOP3 s
  · exact openResumeOP4 _ s
  · exact closeFromCL1 s
  · exact setchipFromSC1 s
  · exact withBound _ _ fun T => readFromRD1 T s
  · exact withBound _ _ fun T => readFromRD2 T s
  · exact withBound _ _ fun T => readResumeRD3 T _ s
  · exact withBound _ _ fun T => readFromRD4 T s
  · exact readFromRD5 s
  · exact withBound _ _ fun T => writeFromWR1 T s
  · exact withBound _ _ fun T => writeResumeWR2 T _ s
  · exact withBound _ _ fun T => writeFromWR3 T s
  · exact withBound _ _ fun T => writeFromWR4 T s
  · exact withBound _ _ fun T => writeFromWR5 T s
  · exact withBound _ _ fun T => writeFromWR6a T s
  · exact withBound _ _ fun T => writeFromWR6b T s
  · exact writeFromWR6c s
  · exact writeFromWR6d s

/-- Every command. -/
theorem exec (i : Instr) (s : State) : OnlyProlongs s (exec i s) := by
  cases i
  · exact openFromOP1 s
  · exact closeFromCL1 s
  · simp only [Machine.exec, execSetchip]; split
    · exact next (withBlk _ _)
    · exact setchipFromSC1 s
  · exact withSession _ _ fun T => after (withBlk s _) (readFromRD1 T _)
  · exact withSession _ _ fun T => after ((withBlk s _).trans (withBlk _ _)) (writeFromWR1 T _)

end OnlyProlongs

end Machine

namespace Trace

theorem busSafe_head (oe : Level) (d : Dir) (es : List Event) (h : busSafe oe d es = true) :
    ((d == .input) || oe) = true := by
  cases es with
  | nil => exact h
  | cons e es =>
    cases e with
    | pin p l => cases p <;> simp_all [busSafe]
    | _ => simp_all [busSafe]

/-- The bus rule over two lists, one after the other. -/
theorem busSafe_append (es fs : List Event) (b : Block) :
    busSafe b.oe b.dir (es ++ fs)
      = (busSafe b.oe b.dir es && busSafe (absorbAll es b).oe (absorbAll es b).dir fs) := by
  induction es generalizing b with
  | nil =>
    simp only [List.nil_append, absorbAll_nil, busSafe]
    cases h : busSafe b.oe b.dir fs
    · simp
    · simp [busSafe_head _ _ _ h]
  | cons e es ih =>
    have := ih (b.absorb e)
    cases e with
    | pin p l => cases p <;> simp_all [busSafe, Bool.and_assoc]
    | _ => simp_all [busSafe, Bool.and_assoc]

/-- With the bus input nothing but a switch to output can break the rule. -/
theorem busSafe_input (es : List Event) (oe : Level) (h : ∀ e ∈ es, e ≠ .dir .output) :
    busSafe oe .input es = true := by
  induction es generalizing oe with
  | nil => rfl
  | cons e es ih =>
    have ih' := fun oe => ih oe (fun e he => h e (by simp [he]))
    cases e with
    | pin p l => cases p <;> simp [busSafe, ih']
    | dir d => cases d <;> simp [busSafe, ih']; exact absurd rfl (h (.dir .output) (by simp))
    | _ => simp [busSafe, ih']

end Trace

end Sys2Proof
end

