-- ==== Sys2Proof/Tests/Slice0.lean ====
section
/-! SUPPORT. The model's own tests. Expected values are those of spec/95_test_vectors.md (the section is named at each test)
or of the cited rule. The last part gives, for every statement with hypotheses, a state and operands that meet them. -/

namespace Sys2Proof.Tests

open Machine

/-! ## Well-formedness: ill-formed terms are refused -/

theorem test_wordWf_refuses : (wordWf 0x00000000 || wordWf 0x00000006 || wordWf 0x000000FF || wordWf 0x00010001
    || wordWf 0x00000104 || wordWf 0x80000005) = false := by decide

theorem test_wordWf_accepts : (wordWf 0x00000001 && wordWf 0x00000002 && wordWf 0x00000003 && wordWf 0x00000004
    && wordWf 0x00000005 && wordWf 0x0000FF05) = true := by decide

theorem test_instr_wf : (Instr.wf .openCmd && Instr.wf .closeCmd && Instr.wf .setchip && Instr.wf .read
    && Instr.wf (.write 0xFF)) = true := by decide

/-- The defaults of spec/95_test_vectors.md section 0, with the given policies and cap. -/
def cfgOf (lp : LatchPolicy) (vp : VerifyPolicy) (cap : Word) : Cfg := Cfg.withDefaults lp vp cap

theorem test_cfg_wf_refuses :
    (Cfg.wf (cfgOf .always .bounded 0) || Cfg.wf { cfgOf .always .bounded 1 with tLatch := 0 }
      || Cfg.wf { cfgOf .always .bounded 1 with tSettle := 0 } || Cfg.wf { cfgOf .always .bounded 1 with clkPerUs := 0 })
      = false ∧ Cfg.wf (cfgOf .always .bounded 1) = true := by decide

theorem test_line_wf_refuses :
    (Line.wf (.write 256) || Line.wf (.writeAt 0 256) || Line.wf (.readAt (2 ^ 32)) || Line.wf (.writeAt (2 ^ 32) 0)
      || Line.wf (.wr .addr (2 ^ 32)) || Line.wf (.erase (2 ^ 32 + 1))) = false ∧
    (Line.wf (.write 255) && Line.wf (.readAt (2 ^ 32 - 1)) && Line.wf (.erase 8192)) = true := by decide

theorem test_memory_wf_refuses :
    ¬ Memory.wf { fill := 0xFF, cells := [(2, 0), (1, 0)] } ∧ ¬ Memory.wf { fill := 0xFF, cells := [(1, 0xFF)] } ∧
    ¬ Memory.wf { fill := 0xFF, cells := [(65536, 0)] } ∧ Memory.wf { fill := 0xFF, cells := [(1, 0), (2, 0)] } := by decide

/-! ## Decoding: the words of R92, bit by bit (RSV, DATA, OPC) -/

theorem test_decode_open : decode 0b0000000000000000_00000000_00000001 = .ok .openCmd := by decide

theorem test_decode_close : decode 0b0000000000000000_00000000_00000010 = .ok .closeCmd := by decide

theorem test_decode_setchip : decode 0b0000000000000000_00000000_00000011 = .ok .setchip := by decide

theorem test_decode_read : decode 0b0000000000000000_00000000_00000100 = .ok .read := by decide

theorem test_decode_write : decode 0b0000000000000000_10100101_00000101 = .ok (.write 0xA5) := by decide

theorem test_decode_write_bounds : decode 0b0000000000000000_00000000_00000101 = .ok (.write 0) ∧
    decode 0b0000000000000000_11111111_00000101 = .ok (.write 255) := by decide

theorem test_decodeTableWord : decodeTableWord 32 0x0000A505 = some (.write 0xA5) ∧ decodeTableWord 32 0 = none ∧
    decodeTableWord 32 0x00010001 = none ∧ decodeTableWord 32 4 = some .read := by decide

/-! ## Operands (section 2.1) -/

theorem test_reduce_table :
    [reduce 0x00000000 8192, reduce 0x00001FFF 8192, reduce 0x00002000 8192, reduce 0x00012010 8192,
     reduce 0xFFFFFFFF 8192, reduce 0x00012345 65536, reduce 0x00012345 131072, reduce 0xFFFFFFFF 0xFFFFFFFF,
     reduce 12345 1, reduce 10 3, reduce 65535 1000, reduce 0x00008000 32768, reduce 65535 65535, reduce 65536 65537]
    = [0x0000, 0x1FFF, 0x0000, 0x0010, 0x1FFF, 0x2345, 0x2345, 0xFFFF, 0x0000, 0x0001, 0x0217, 0x0000, 0x0000, 0x0000] := by
  decide

/-! ## States -/

/-- `C8K` of section 0. -/
def c8k : ChipDesc := { capacity := 8192, clock := 0, wc := 1000, wp := 1, oe := 1, od := 1, acc := 0 }

/-- A block in a session with `C8K` bound. -/
def openBlock : Block := { Block.reset with isOpen := true, chip := some c8k, stg := c8k, driven := true }

/-- A state with a block and a device; `SR` arbitrary, `A` as OPEN leaves it. -/
def stateOf (c : Cfg) (b : Block) (d : Device) : State :=
  { cfg := c, blk := b, env := { sr := 0x5A5A, latch := 0, device := d, now := 0, samples := 0 }
    host := [], replies := [], trace := [] }

/-- The state right after reset with the parameters of the vectors. -/
def resetState : State := stateOf (cfgOf .skipSame .bounded 100) Block.reset .oracle

/-- Section 2.5's start state, with a script. -/
def openState (lp : LatchPolicy) (cap addr : Word) (script : List Byte) : State :=
  stateOf (cfgOf lp .bounded cap) { openBlock with addrReg := addr } (.script script)

/-- A reference chip of 8192 bytes, all `fill`. -/
def chipOf (k : ChipKind) (fill : Byte) : RefChip :=
  { kind := k, capacity := 8192, mem := { fill := fill, cells := [] }, shadows := [] }

/-- A session with a reference chip, `reg[ADDR] = 0x10`. -/
def chipState (k : ChipKind) (fill : Byte) (vp : VerifyPolicy) (cap : Word) : State :=
  stateOf (cfgOf .skipSame vp cap) { openBlock with addrReg := 0x10 } (.chip (chipOf k fill))

/-- A verify loop that is running, as WRITE 0xA5 leaves it after a failed iteration. -/
def loopState (k : ChipKind) (vp : VerifyPolicy) : State :=
  stateOf (cfgOf .skipSame vp 3) { openBlock with seq := .wr6a, wval := 0xA5, iter := 1 } (.chip (chipOf k 0x00))

/-- What is read off a state an operation answers. -/
def got {α : Type} (o : Out State) (f : State → α) : Option α :=
  match o with
  | .next s    => some (f s)
  | .fault _   => none
  | .refused _ => none

/-- RESULT, STATUS, PINS, CUR_ADDR as the host reads them. -/
def view (s : State) : List Word := [readReg s 0x02, readReg s 0x03, readReg s 0x05, readReg s 0x04]

/-! ## The commands, one step each -/

/-- Section 2.7, OPEN from reset: 59 events. -/
theorem test_open : got (exec .openCmd resetState) (fun s => (view s, s.trace.length, s.env.latch, s.env.now))
    = some ([0x001, 0x10, 0x58, 0], 59, 0, 2) := by decide

/-- Section 2.7, OPEN after a READ of 0x1FFF: OE raised again, the chip still bound. -/
theorem test_open_again :
    got (exec .openCmd (stateOf (cfgOf .skipSame .bounded 100)
      { openBlock with oe := false, dat := true, curAddr := 0x1FFF } .oracle)) view
    = some [0x001, 0x30, 0x58, 0] := by decide

/-- Section 2.7, CLOSE from reset. -/
theorem test_close : got (exec .closeCmd resetState) (fun s => (view s, s.trace)) = some ([0, 0, 0x18, 0], [.dir .input]) := by
  decide

/-- Section 2.7, CLOSE after a READ: OE stays low. -/
theorem test_close_after_read :
    got (exec .closeCmd (stateOf (cfgOf .skipSame .bounded 100) { openBlock with oe := false } .oracle)) view
    = some [0, 0x20, 0x50, 0] := by decide

/-- Section 2.7, SETCHIP with `C8K` staged, closed. -/
theorem test_setchip :
    got (exec .setchip (stateOf (cfgOf .skipSame .bounded 100) { Block.reset with stg := c8k } .oracle))
      (fun s => (view s, s.blk.chip, s.trace)) = some ([0, 0x20, 0x18, 0], some c8k, []) := by decide

/-- Section 2.7, SETCHIP with a staged capacity of 0: refused, the old binding kept. -/
theorem test_setchip_refused :
    got (exec .setchip (stateOf (cfgOf .skipSame .bounded 100) { openBlock with stg := noDesc } .oracle))
      (fun s => (view s, readReg s 0x10)) = some ([0x100, 0x35, 0x58, 0], 8192) := by decide

/-- Section 2.5, first row: the skipped READ of address 0, event by event. -/
theorem test_read_skips : got (exec .read (openState .skipSame 100 0 [0x7E])) (fun s => (view s, s.trace))
    = some ([0x07E, 0x30, 0x50, 0],
        [.dir .input, .pin .oe true, .delay 1, .pin .oe false, .delay 1, .smp 0x7E]) := by decide

/-- Section 2.5, fifth row: address 0xFFFFFFFF is reduced to 0x1FFF and latched. -/
theorem test_read_latches :
    got (exec .read (openState .always 100 0xFFFFFFFF [0xFF])) (fun s => (view s, s.env.latch, s.env.now))
    = some ([0x0FF, 0x30, 0x52, 0x1FFF], 0x1FFF, 4) := by decide

/-- Section 2.6, script [A5, A5]. -/
theorem test_write : got (exec (.write 0xA5) (openState .skipSame 1 0x10 [0xA5, 0xA5]))
      (fun s => (view s, s.trace.length, s.env.now)) = some ([0x0A5, 0x30, 0xA558, 0x0010], 72, 1009) := by decide

/-- Section 2.6, script [A4, A5] with cap 1: the readings differ, the budget is spent. -/
theorem test_write_fails : got (exec (.write 0xA5) (openState .skipSame 1 0x10 [0xA4, 0xA5])) view
    = some [0x100, 0x32, 0xA558, 0x0010] := by decide

/-! ## Errors, registers, steps (section 2.8) -/

theorem test_errors :
    got (runCommand 0x00000004 resetState) (readReg · 0x03) = some 0x03 ∧
    got (runCommand 0x00001205 resetState) (readReg · 0x03) = some 0x03 ∧
    got (runCommand 0x00000104 resetState) (readReg · 0x03) = some 0x04 ∧
    got (runCommand 0x0000FF05 (stateOf resetState.cfg { openBlock with chip := none } .oracle)) (readReg · 0x03)
      = some 0x11 ∧
    got (runCommand 0x00000004 (stateOf resetState.cfg { openBlock with isOpen := false } .oracle)) (readReg · 0x03)
      = some 0x23 := by decide

theorem test_registers :
    readReg resetState 0x05 = 0x18 ∧ readReg resetState 0x00 = 0 ∧ readReg resetState 0x1F = 0 ∧
    readReg resetState 0x06 = 3 ∧
    got (hostWrite 0x01 0xDEADBEEF resetState) (readReg · 0x01) = some 0xDEADBEEF ∧
    got (hostWrite 0x02 0x55 resetState) (readReg · 0x02) = some 0 := by decide

/-- A step takes the write to CMD off the queue and runs it; withFetchWord puts it there. -/
theorem test_step_fetches :
    got (step (State.withFetchWord resetState 32 0x00000002)) (fun s => (s.trace, s.host)) = some ([.dir .input], []) := by
  decide

/-- Each command word is the first thing a step runs after reset. -/
theorem test_reset_runs : (∃ t, step (State.withFetchWord State.reset 32 1) = .next t) ∧
    (∃ t, step (State.withFetchWord State.reset 32 2) = .next t) ∧
    (∃ t, step (State.withFetchWord State.reset 32 3) = .next t) ∧
    (∃ t, step (State.withFetchWord State.reset 32 4) = .next t) ∧
    ∃ t, step (State.withFetchWord State.reset 32 0xA505) = .next t :=
  ⟨⟨_, rfl⟩, ⟨_, rfl⟩, ⟨_, rfl⟩, ⟨_, rfl⟩, _, rfl⟩

/-- R302: a reset two events into OPEN leaves two events and the reset block; the reads behind it are still to come. -/
theorem test_reset_cuts :
    got (step { resetState with host := [.access (.write 0x00 1), .reset 2, .access (.read 0x03)] })
      (fun s => (s.trace, s.blk, s.host)) = some ([.dir .input, .pin .we true], Block.reset, [.access (.read 0x03)]) := by
  decide

/-- R72: before `wc` has passed a DELAYED chip answers the old byte, then the new one. -/
theorem test_delayed :
    let c := (chipOf .delayed 0xFF).commit 10 1000 0x10 0xA5
    c.output 1009 0x10 = 0xFF ∧ c.output 1010 0x10 = 0xA5 ∧ c.output 1009 0x11 = 0xFF := by decide

/-- R166 on a concrete byte. -/
theorem test_packLines : packLines (getPin 0xA5) = 0xA5 ∧ getPin 0xA5 0 = true ∧ getPin 0xA5 1 = false := by decide

/-- R97, R98: the staging writes and SETCHIP. -/
theorem test_assemble : (assemble [.setchipWith c8k]).length = 8 ∧
    assemble [.writeAt 0x10 0xA5] = [.access (.write 0x01 0x10), .access (.write 0x00 0x0000A505), .access (.read 0x02)] := by
  decide

/-! ## Witnesses: for each statement with hypotheses, operands and a state that meet them -/

/-- OpcodeMapSelects: a word with OPC 0x00. -/
theorem test_witness_opcode_zero : opcField 0xFFFFFF00 = 0 := by decide

/-- IllegalWordRaisesBadCmd: an illegal word of each clause of R94's list at its bounds, and an idle block. -/
theorem test_witness_illegal : illegalWord 0x00000000 = true ∧ illegalWord 0x00000006 = true ∧
    illegalWord 0x000000FF = true ∧ illegalWord 0x00010005 = true ∧ illegalWord 0xFFFF0005 = true ∧
    illegalWord 0x00000101 = true ∧ illegalWord 0x0000FF04 = true ∧ illegalWord 0x0000FF05 = false ∧
    resetState.blk.seq = .idle := by decide

/-- SetPinWritesThenWaits: undriven pins, and a second pin. -/
theorem test_witness_undriven : resetState.blk.driven = false ∧ Pin.oe ≠ Pin.we := by decide

/-- ShiftLatchSendsAddress: driven pins at their idle levels. -/
theorem test_witness_idle_pins : openBlock.driven = true ∧ openBlock.clk = false ∧ openBlock.lat = false := by decide

/-- SetAddressSkipsOrLatches and SetAddressTwice: each case of the policy and of the comparison. -/
theorem test_witness_policies :
    (openState .skipSame 1 0 []).cfg.latchPolicy = .skipSame ∧ (0 : Addr16) = (openState .skipSame 1 0 []).blk.curAddr ∧
    (openState .always 1 0 []).cfg.latchPolicy = .always ∧ (0xFFFF : Addr16) ≠ (openState .skipSame 1 0 []).blk.curAddr := by
  decide

/-- DataBusDriverWrites, ReadByteSamplesInput: both directions. -/
theorem test_witness_directions : openBlock.dir = .input ∧
    (stateOf resetState.cfg { openBlock with dir := .output } .oracle).blk.dir = .output := by decide

/-- BusKeeperRoundTrip: a keeper. -/
theorem test_witness_keeper : (stateOf resetState.cfg openBlock (.keeper 0x00)).env.device = .keeper 0x00 := by decide

/-- AddressReduction: each clause at its bounds: capacity 1 and 65536 as powers of two, 65536 and 2^32 - 1 as large
capacities, the last and the first alias, a capacity that is no power of two. -/
theorem test_witness_reduction :
    ((1 : Word) ≠ 0 ∧ (3 : Word) ≠ 0) ∧ ((1 : Word).toNat = 2 ^ 0 ∧ (65536 : Word).toNat = 2 ^ 16 ∧ 16 ≤ 16) ∧
    (65536 ≤ (65536 : Word).toNat ∧ 65536 ≤ (0xFFFFFFFF : Word).toNat) ∧
    ((0xFFFFFFFF : Word).toNat = (0x1FFF : Word).toNat + 524287 * min (8192 : Word).toNat 65536) := by decide

/-- ReadRunsItsCycle, ReadSamplesOnce, ReadMinimumDuration, WriteRunsItsCycle, WriteMinimumDuration: a session with a chip bound. -/
theorem test_witness_session : (openState .skipSame 100 0x10 []).blk.isOpen = true ∧
    (openState .skipSame 100 0x10 []).blk.chip = some c8k := by decide

/-- ReadFrame: READ answers a next state with a reference chip behind the bus. -/
theorem test_witness_read_frame : ∃ t, exec .read (chipState .ideal 0xFF .bounded 3) = .next t ∧
    (chipState .ideal 0xFF .bounded 3).env.device = .chip (chipOf .ideal 0xFF) := ⟨_, rfl, rfl⟩

/-- WriteSucceedsWhenReadBack: the script holds the byte twice. -/
theorem test_witness_read_back :
    (openState .always 1 0x10 [0xA5, 0xA5, 0x00]).env.device = .script (0xA5 :: 0xA5 :: [0x00]) ∧
    (openState .always 1 0x10 [0xA5, 0xA5, 0x00]).blk.isOpen = true ∧
    (openState .always 1 0x10 [0xA5, 0xA5, 0x00]).blk.chip = some c8k := by decide

/-- VerifyIterationRuns, WriteMinimumDuration's second half: a running loop with no reset pending. -/
theorem test_witness_loop : (loopState .never .bounded).blk.seq = .wr6a ∧ (loopState .never .bounded).blk.chip = some c8k ∧
    (loopState .never .bounded).blk.dir = .input ∧ (∀ n rest, (loopState .never .bounded).host ≠ .reset n :: rest) := by
  refine ⟨rfl, rfl, rfl, fun n rest h => ?_⟩
  cases h

/-- BoundedWriteEnds: the smallest cap and a larger one. -/
theorem test_witness_bounded : ∀ cap : Word, (cap = 1 ∨ cap = 100) →
    (openState .skipSame cap 0x10 []).blk.isOpen = true ∧ (openState .skipSame cap 0x10 []).blk.chip = some c8k ∧
    (openState .skipSame cap 0x10 []).cfg.verifyPolicy = .bounded ∧
    1 ≤ (openState .skipSame cap 0x10 []).cfg.retryCap.toNat ∧
    (∀ n rest, (openState .skipSame cap 0x10 []).host ≠ .reset n :: rest) := by
  rintro cap (rfl | rfl) <;> exact ⟨rfl, rfl, rfl, by decide, fun n rest h => nomatch h⟩

/-- The invariant in a session with a reference chip, idle. -/
theorem test_chipState_inv (k : ChipKind) (fill : Byte) (vp : VerifyPolicy) (cap : Word) : Inv (chipState k fill vp cap) where
  rest := ⟨rfl, rfl, rfl, rfl, .inl rfl⟩
  coherent := ⟨fun _ => rfl, fun _ => rfl⟩
  usable := by intro T h; cases h; decide
  memory := ⟨List.Pairwise.nil, fun c h => nomatch h⟩

/-- The invariant in a verify loop. -/
theorem test_loopState_inv (k : ChipKind) (vp : VerifyPolicy) : Inv (loopState k vp) where
  rest := ⟨rfl, rfl, rfl, rfl, .inr ⟨rfl, rfl, rfl, rfl⟩⟩
  coherent := ⟨fun _ => rfl, fun _ => rfl⟩
  usable := by intro T h; cases h; decide
  memory := ⟨List.Pairwise.nil, fun c h => nomatch h⟩

/-- ReadSamplesAStableAddress, ReadReturnsChipByte, AddressReduction's last clause: a session with a chip that has no write under way. -/
theorem test_witness_read_chip : Inv (chipState .ideal 0x3C .bounded 3) ∧ (chipState .ideal 0x3C .bounded 3).blk.isOpen = true ∧
    (chipState .ideal 0x3C .bounded 3).blk.chip = some c8k ∧
    (chipState .ideal 0x3C .bounded 3).env.device = .chip (chipOf .ideal 0x3C) ∧ (chipOf .ideal 0x3C).shadows = [] :=
  ⟨test_chipState_inv _ _ _ _, rfl, rfl, rfl, rfl⟩

/-- ReadAfterOpenReturnsByteZero: no session, a chip bound, ADDR 0. -/
theorem test_witness_open_read :
    let s := stateOf resetState.cfg { Block.reset with chip := some c8k } (.chip (chipOf .ideal 0x7E))
    s.blk.chip = some c8k ∧ s.blk.addrReg = 0 ∧ s.env.device = .chip (chipOf .ideal 0x7E) ∧
    (chipOf .ideal 0x7E).shadows = [] := ⟨rfl, rfl, rfl, rfl⟩

/-- UnboundedWriteHangs, first half: a loop against NEVER. -/
theorem test_witness_hang_loop :
    (loopState .never .unbounded).cfg.verifyPolicy = .unbounded ∧ (loopState .never .unbounded).blk.seq = .wr6a ∧
    (loopState .never .unbounded).blk.chip.isSome = true ∧ (loopState .never .unbounded).blk.dir = .input ∧
    (loopState .never .unbounded).blk.driven = true ∧
    (∀ n rest, (loopState .never .unbounded).host ≠ .reset n :: rest) ∧
    (loopState .never .unbounded).env.device = .chip (chipOf .never 0x00) ∧ (chipOf .never 0x00).kind = .never ∧
    (chipOf .never 0x00).shadows = [] ∧
    (chipOf .never 0x00).mem.read ((chipOf .never 0x00).index (loopState .never .unbounded).env.latch)
      ≠ (loopState .never .unbounded).blk.wval :=
  ⟨rfl, rfl, rfl, rfl, rfl, (fun n rest h => nomatch h), rfl, rfl, rfl, by decide⟩

/-- UnboundedWriteHangs, second half: WRITE 0x00 against NEVER holding 0xFF. -/
theorem test_witness_hang :
    Inv (chipState .never 0xFF .unbounded 3) ∧ (chipState .never 0xFF .unbounded 3).blk.seq = .idle ∧
    (chipState .never 0xFF .unbounded 3).blk.isOpen = true ∧ (chipState .never 0xFF .unbounded 3).blk.chip = some c8k ∧
    (chipState .never 0xFF .unbounded 3).env.device = .chip (chipOf .never 0xFF) ∧ (chipOf .never 0xFF).kind = .never ∧
    (chipOf .never 0xFF).shadows = [] ∧
    (chipOf .never 0xFF).mem.read ((chipOf .never 0xFF).index (reduce 0x10 c8k.capacity)) ≠ 0x00 ∧
    (chipState .never 0xFF .unbounded 3).cfg.verifyPolicy = .unbounded ∧
    (∀ n rest, (chipState .never 0xFF .unbounded 3).host ≠ .reset n :: rest) :=
  ⟨test_chipState_inv _ _ _ _, rfl, rfl, rfl, rfl, rfl, rfl, by decide, rfl, fun n rest h => nomatch h⟩

/-- WriteStoresInReferenceChip: IDEAL and DELAYED of the bound capacity. -/
theorem test_witness_store : ∀ k : ChipKind, (k = .ideal ∨ k = .delayed) →
    Inv (chipState k 0xFF .bounded 3) ∧ (chipState k 0xFF .bounded 3).blk.seq = .idle ∧
    (chipState k 0xFF .bounded 3).blk.isOpen = true ∧ (chipState k 0xFF .bounded 3).blk.chip = some c8k ∧
    (chipState k 0xFF .bounded 3).env.device = .chip (chipOf k 0xFF) ∧
    ((chipOf k 0xFF).kind = .ideal ∨ (chipOf k 0xFF).kind = .delayed) ∧
    (chipOf k 0xFF).capacity = c8k.capacity.toNat ∧ ((chipOf k 0xFF).kind = .ideal → (chipOf k 0xFF).shadows = []) :=
  fun _ hk => ⟨test_chipState_inv _ _ _ _, rfl, rfl, rfl, rfl, hk, rfl, fun _ => rfl⟩

/-- WriteFailsAgainstNever: the smallest cap and P3's. -/
theorem test_witness_never : ∀ cap : Word, (cap = 1 ∨ cap = 3) →
    Inv (chipState .never 0xFF .bounded cap) ∧ (chipState .never 0xFF .bounded cap).blk.seq = .idle ∧
    (chipState .never 0xFF .bounded cap).blk.isOpen = true ∧ (chipState .never 0xFF .bounded cap).blk.chip = some c8k ∧
    (chipState .never 0xFF .bounded cap).env.device = .chip (chipOf .never 0xFF) ∧ (chipOf .never 0xFF).kind = .never ∧
    (chipOf .never 0xFF).shadows = [] ∧
    (chipOf .never 0xFF).mem.read ((chipOf .never 0xFF).index (reduce 0x10 c8k.capacity)) ≠ 0x00 ∧
    (chipState .never 0xFF .bounded cap).cfg.verifyPolicy = .bounded ∧
    1 ≤ (chipState .never 0xFF .bounded cap).cfg.retryCap.toNat ∧
    (∀ n rest, (chipState .never 0xFF .bounded cap).host ≠ .reset n :: rest) := by
  rintro cap (rfl | rfl) <;>
    exact ⟨test_chipState_inv _ _ _ _, rfl, rfl, rfl, rfl, rfl, rfl, by decide, rfl, by decide, fun n rest h => nomatch h⟩

/-- WriteFrame: WRITE in a session, refused without a session, refused without a chip. -/
theorem test_witness_write_frame :
    (∃ t, exec (.write 0xA5) (chipState .ideal 0xFF .bounded 3) = .next t) ∧ Inv (chipState .ideal 0xFF .bounded 3) ∧
    (∃ t, exec (.write 0xA5) resetState = .next t) ∧ resetState.blk.isOpen = false ∧ Inv resetState ∧
    ∃ t, exec (.write 0xA5) (stateOf resetState.cfg { openBlock with chip := none } .oracle) = .next t :=
  ⟨⟨_, rfl⟩, test_chipState_inv _ _ _ _, ⟨_, rfl⟩, rfl,
   ⟨⟨rfl, rfl, rfl, rfl, .inl rfl⟩, ⟨(fun h => nomatch h), fun h => nomatch h⟩, (fun _ h => nomatch h), trivial⟩, ⟨_, rfl⟩⟩

/-- OneWritePulsePerWrite, VerifyIterationStoresNothing: a verify loop with a chip behind the bus takes a step. -/
theorem test_witness_pulse : (loopState .never .bounded).blk.seq = .wr6a ∧
    (loopState .never .bounded).env.device = .chip (chipOf .never 0x00) ∧ ∃ t, step (loopState .never .bounded) = .next t :=
  ⟨rfl, rfl, _, rfl⟩

/-- SetchipBindsOrRefuses: staged capacity 0 and 1. -/
theorem test_witness_setchip : (stateOf resetState.cfg { openBlock with stg := noDesc } .oracle).blk.stg.capacity = 0 ∧
    (stateOf resetState.cfg { openBlock with stg := { noDesc with capacity := 1 } } .oracle).blk.stg.capacity ≠ 0 := by
  decide

/-- SessionCommandsFrame: each of the three commands, with a chip behind the bus. -/
theorem test_witness_session_frame : ∀ i, (i = Instr.openCmd ∨ i = .closeCmd ∨ i = .setchip) →
    ∃ t, exec i (chipState .ideal 0xFF .bounded 3) = .next t := by
  rintro i (rfl | rfl | rfl) <;> exact ⟨_, rfl⟩

/-- PreCheckErrorsArePrecise: a state for each pre-check. -/
theorem test_witness_prechecks : resetState.blk.seq = .idle ∧ resetState.blk.isOpen = false ∧
    (stateOf resetState.cfg { openBlock with chip := none } .oracle).blk.isOpen = true ∧
    (stateOf resetState.cfg { openBlock with chip := none } .oracle).blk.chip = none ∧
    resetState.blk.stg.capacity = 0 ∧ decode 0x00000006 = .error .opcode := by decide

/-- LifecycleModes, SentinelMarksFailure, OnlyOpenDrivesPins: every command answers, here in a session, and ends idle. -/
theorem test_witness_commands : ∀ i, (i = Instr.openCmd ∨ i = .closeCmd ∨ i = .setchip ∨ i = .read ∨ i = .write 0xA5) →
    ∃ t, exec i (chipState .ideal 0xFF .bounded 3) = .next t ∧ t.blk.seq = .idle := by
  rintro i (rfl | rfl | rfl | rfl | rfl) <;> exact ⟨_, rfl, by decide⟩

/-- ClockAndAccUnused: READ and WRITE answer with a bound chip. -/
theorem test_witness_clock : ∀ i, (i = Instr.read ∨ i = .write 0xA5) →
    (i = Instr.read ∨ ∃ v, i = Instr.write v) ∧
    ∃ t, exec i { chipState .ideal 0xFF .bounded 3 with
      blk := { (chipState .ideal 0xFF .bounded 3).blk with chip := some c8k } } = .next t := by
  rintro i (rfl | rfl)
  · exact ⟨.inl rfl, _, rfl⟩
  · exact ⟨.inr ⟨_, rfl⟩, _, rfl⟩

/-- RegisterReads, FieldRegisterReads, RegisterWrites: both cases of the binding, and the ends of the index ranges. -/
theorem test_witness_registers : openBlock.chip = some c8k ∧ Block.reset.chip = none ∧
    ((0x10 : BitVec 5) ≤ 0x10 ∧ (0x10 : BitVec 5) ≤ 0x16 ∧ (0x16 : BitVec 5) ≤ 0x16) ∧
    ((0x1A : BitVec 5) ≤ 0x1A ∧ (0x1A : BitVec 5) ≤ 0x1F) ∧
    ((0x02 : BitVec 5) ≠ 0 ∧ (0x02 : BitVec 5) ≠ 0x01 ∧ ¬ ((0x08 : BitVec 5) ≤ 0x07 ∧ (0x07 : BitVec 5) ≤ 0x0E)) ∧
    ¬ ((0x08 : BitVec 5) ≤ 0x0F ∧ (0x0F : BitVec 5) ≤ 0x0E) ∧ 8 < 9 ∧ 9 ≤ 31 ∧ 3 < 4 ∧ 6 ≤ 31 ∧ 16 ≤ 31 := by decide

/-- StepRunsDecodedCommand: a legal word, an illegal one, another access, an empty queue. -/
theorem test_witness_step :
    resetState.blk.seq = .idle ∧ (∀ n r, ([] : List HostInput) ≠ .reset n :: r) ∧
    State.host { resetState with host := [.access (.write 0x00 1)] } = .access (.write 0x00 1) :: [] ∧
    decode 1 = .ok .openCmd ∧ decode 0 = .error .opcode ∧
    State.host { resetState with host := [.access (.write 0x00 0)] } = .access (.write 0x00 0) :: [] ∧
    State.host { resetState with host := [.access (.read 0x02)] } = .access (.read 0x02) :: [] ∧ resetState.host = [] :=
  ⟨rfl, (fun n r h => nomatch h), rfl, by decide, by decide, rfl, rfl, rfl⟩

/-- HostStalledWhileRunning: a running loop with a host access waiting. -/
theorem test_witness_stalled :
    ∃ t, step { loopState .never .bounded with host := [.access (.read 0x03)] } = .next t ∧
      (loopState .never .bounded).blk.seq ≠ .idle ∧
      ∀ n rest, ([.access (.read 0x03)] : List HostInput) ≠ .reset n :: rest :=
  ⟨_, rfl, by decide, fun n rest h => nomatch h⟩

/-- ResetValues: a reset pending while idle, and in a verify loop that satisfies the invariant. -/
theorem test_witness_reset : State.blk { resetState with host := [.reset 7] } = Block.reset ∧
    Inv { loopState .never .unbounded with host := [.reset 0] } :=
  ⟨rfl, (test_loopState_inv .never .unbounded).rest,
    ⟨(test_loopState_inv .never .unbounded).coherent.driven, (test_loopState_inv .never .unbounded).coherent.latch⟩,
    (test_loopState_inv .never .unbounded).usable, (test_loopState_inv .never .unbounded).memory⟩

/-- PseudoInstructionsExpand: the ends of the ranges. -/
theorem test_witness_lines : 2 ^ 32 - 1 < 2 ^ 32 ∧ 255 < 256 ∧ 0 < 256 ∧ 8191 < 2 ^ 32 := by decide

/-- spec/30_encoding.md section 5: WRITE 0xA5 and RD RESULT as accesses. -/
theorem test_lines : expand (.write 0xA5) = [.access (.write 0x00 0x0000A505)] ∧
    expand (.rd .result) = [.access (.read 0x02)] := by decide

/-- WriteStepsDoTheirPart: a block in input direction, the test passed and the test failed. -/
theorem test_witness_writeSteps : resetState.blk.dir = .input ∧
    (resetState.blk.r1 = resetState.blk.r2 ∧ resetState.blk.r1 = resetState.blk.wval) ∧
    ¬ ((loopState .never .bounded).blk.r1 = (loopState .never .bounded).blk.r2 ∧
      (loopState .never .bounded).blk.r1 = (loopState .never .bounded).blk.wval) := by decide

/-- ResetCutsCommandShort: a reset behind CLOSE's one event, and a verify iteration of eleven events with the reset on its
last event and behind it. -/
theorem test_witness_cutLater :
    (∃ t, exec .closeCmd { resetState with host := [.reset 1] } = .next t ∧
      t.trace = resetState.trace ++ [.dir .input] ∧ [Event.dir .input].length ≤ 1) ∧
    (∀ n, (n = 10 ∨ n = 11) → State.host { loopState .never .bounded with host := [.reset n] } = .reset n :: []) ∧
    (∀ x y, 10 < (Trace.iteration (loopState .never .bounded).cfg c8k x y).length ∧
      (Trace.iteration (loopState .never .bounded).cfg c8k x y).length ≤ 11) := by
  refine ⟨⟨_, rfl, by decide, by decide⟩, fun n _ => rfl, fun x y => ⟨?_, ?_⟩⟩
  · show 10 < 11; decide
  · show 11 ≤ 11; decide

/-- ResetCutsCommandShort: CLOSE cut before its one event. -/
theorem test_witness_cut : resetState.blk.seq = .idle ∧ decode 0x00000002 = .ok .closeCmd ∧
    (∃ t, exec .closeCmd { resetState with host := [.reset 0] } = .next t ∧
      t.trace = resetState.trace ++ [.dir .input] ∧ 0 < [Event.dir .input].length) :=
  ⟨rfl, by decide, _, rfl, by decide, by decide⟩

/-- EveryStepKeepsInvariant, MachineNeverStops, BusNeverContended, ConfigurationFixedTraceGrows: a WRITE about to be taken,
and a verify loop. -/
theorem test_witness_invariant :
    Inv (State.withFetchWord (chipState .ideal 0xFF .bounded 3) 32 0x0000A505) ∧
    (∃ t, step (State.withFetchWord (chipState .ideal 0xFF .bounded 3) 32 0x0000A505) = .next t) ∧
    Inv (loopState .never .bounded) ∧ (∃ t, step (loopState .never .bounded) = .next t) :=
  ⟨⟨⟨rfl, rfl, rfl, rfl, .inl rfl⟩, ⟨fun _ => rfl, fun _ => rfl⟩, by intro T h; cases h; decide,
     ⟨List.Pairwise.nil, fun c h => nomatch h⟩⟩, ⟨_, rfl⟩, test_loopState_inv _ _, ⟨_, rfl⟩⟩

end Sys2Proof.Tests
end

section
/-! SUPPORT. The host register port (spec/10_state.md R30 to R42): the map as a bijection between the registers and the
indices that are not reserved, and what a read and a write of a mapped and of a reserved index do. -/

namespace Sys2Proof.Machine

variable (s : State) (w : Word) (r : RegName) (idx : BitVec 5)

/-! ### The map -/

/-- The indices that name no register (R30, R41). -/
def Reserved (idx : BitVec 5) : Prop := idx = 0x0F ∨ 0x1A ≤ idx

@[simp] theorem regAt_regIndex : regAt (regIndex r) = some r := by
  cases r with
  | chip f => cases f <;> decide
  | act f => cases f <;> decide
  | _ => decide

theorem regAt_eq_none_iff : regAt idx = none ↔ Reserved idx := by
  unfold Reserved
  revert idx
  decide

theorem regIndex_of_regAt_eq_some {idx : BitVec 5} {r : RegName} (h : regAt idx = some r) : regIndex r = idx := by
  rw [regAt] at h
  simpa using List.find?_some h

/-- Every index is that of a register or reserved. -/
theorem index_cases : (∃ r, idx = regIndex r) ∨ Reserved idx := by
  cases h : regAt idx with
  | none => exact .inr ((regAt_eq_none_iff idx).mp h)
  | some r => exact .inl ⟨r, (regIndex_of_regAt_eq_some h).symm⟩

/-- The ACT_* registers fill the range 0x10 to 0x16. -/
theorem act_range_iff : 0x10 ≤ regIndex r ∧ regIndex r ≤ 0x16 ↔ ∃ f, r = .act f := by
  cases r with
  | chip f => cases f <;> simp [regIndex]
  | act f => cases f <;> simp [regIndex]
  | _ => simp [regIndex]

/-- The CHIP_* registers fill the range 0x08 to 0x0E. -/
theorem chip_range_iff : 0x08 ≤ regIndex r ∧ regIndex r ≤ 0x0E ↔ ∃ f, r = .chip f := by
  cases r with
  | chip f => cases f <;> simp [regIndex]
  | act f => cases f <;> simp [regIndex]
  | _ => simp [regIndex]

/-! ### Reads -/

@[simp] theorem readReg_regIndex : readReg s (regIndex r) = regValue s r := by
  rw [readReg, regAt_regIndex]

theorem readReg_reserved {idx : BitVec 5} (h : Reserved idx) : readReg s idx = 0 := by
  rw [readReg, (regAt_eq_none_iff idx).mpr h]

theorem readReg_act_bound {T : ChipDesc} (h : s.blk.chip = some T) (f : DescField) :
    readReg s (regIndex (.act f)) = descGet T f := by
  rw [readReg_regIndex, regValue, actWord, h]

theorem readReg_act_unbound (h : s.blk.chip = none) (f : DescField) : readReg s (regIndex (.act f)) = 0 := by
  rw [readReg_regIndex, regValue, actWord, h]

@[simp] theorem perform_read :
    perform (.read idx) s = .next { s with replies := s.replies ++ [readReg s idx] } := rfl

/-! ### Writes -/

theorem hostWrite_regIndex {r : RegName} (h : r ≠ .cmd) : hostWrite (regIndex r) w s = .next (writeReg w s r) := by
  rw [hostWrite, regAt_regIndex]
  cases r with
  | cmd => exact absurd rfl h
  | _ => rfl

theorem hostWrite_reserved {idx : BitVec 5} (h : Reserved idx) : hostWrite idx w s = .next s := by
  rw [hostWrite, (regAt_eq_none_iff idx).mpr h]

/-- The read-only registers of R41. -/
theorem writeReg_readOnly {r : RegName} (ha : r ≠ .addr) (hc : ∀ f, r ≠ .chip f) : writeReg w s r = s := by
  cases r with
  | addr => exact absurd rfl ha
  | chip f => exact absurd rfl (hc f)
  | _ => rfl

end Sys2Proof.Machine
end

section
/-! SUPPORT. The bits of the registers with fields (spec/10_state.md R33, R34, R36, R37). -/

namespace Sys2Proof.Machine

variable (b : Block) (c : Cfg) {n : Nat}

/-- The lowest bit of a word built by appending one flag. -/
theorem getLsbD_append_flag_zero {m : Nat} (x : BitVec m) (l : Bool) : (x ++ BitVec.ofBool l).getLsbD 0 = l := by
  rw [BitVec.getLsbD_append, if_pos Nat.one_pos, BitVec.getLsbD_ofBool]
  simp

/-- The flag appended last moves every other bit up by one. -/
theorem getLsbD_append_flag_succ {m : Nat} (x : BitVec m) (l : Bool) (n : Nat) :
    (x ++ BitVec.ofBool l).getLsbD (n + 1) = x.getLsbD n := by
  simp [BitVec.getLsbD_append]

theorem resultWord_getLsbD (h : n < 9) : (resultWord b).getLsbD n = b.result.getLsbD n := by
  simp [resultWord]; omega

theorem resultWord_getLsbD_of_le (h : 9 ≤ n) : (resultWord b).getLsbD n = false := by
  simp [resultWord, BitVec.getLsbD_of_ge _ _ h]

theorem statusWord_getLsbD_code (h : n < 4) : (statusWord b).getLsbD n = (codeBits b.code).getLsbD n := by
  rw [statusWord, BitVec.getLsbD_append, if_pos h]

theorem statusWord_code : (statusWord b).extractLsb' 0 4 = codeBits b.code := by
  refine BitVec.eq_of_getLsbD_eq fun i hi => ?_
  rw [BitVec.getLsbD_extractLsb', Nat.zero_add, statusWord_getLsbD_code b hi]
  simp [hi]

/-- STATUS above its code. -/
theorem statusWord_getLsbD_add_four :
    (statusWord b).getLsbD (n + 4) =
      ((0 : BitVec 26) ++ BitVec.ofBool b.chip.isSome ++ BitVec.ofBool b.isOpen).getLsbD n := by
  rw [statusWord, BitVec.getLsbD_append, if_neg (by omega), Nat.add_sub_cancel]

theorem statusWord_getLsbD_open : (statusWord b).getLsbD 4 = b.isOpen := by
  rw [statusWord_getLsbD_add_four (n := 0), getLsbD_append_flag_zero]

theorem statusWord_getLsbD_chipSet : (statusWord b).getLsbD 5 = b.chip.isSome := by
  rw [statusWord_getLsbD_add_four (n := 1), getLsbD_append_flag_succ, getLsbD_append_flag_zero]

theorem statusWord_getLsbD_of_le (h : 6 ≤ n) : (statusWord b).getLsbD n = false := by
  obtain ⟨k, rfl⟩ := Nat.exists_eq_add_of_le' h
  rw [statusWord_getLsbD_add_four (n := k + 2), getLsbD_append_flag_succ, getLsbD_append_flag_succ]
  simp

theorem pinsWord_getLsbD_flags :
    (pinsWord b).getLsbD 0 = b.clk ∧ (pinsWord b).getLsbD 1 = b.dat ∧ (pinsWord b).getLsbD 2 = b.lat ∧
    (pinsWord b).getLsbD 3 = b.oe ∧ (pinsWord b).getLsbD 4 = b.we ∧
    (pinsWord b).getLsbD 5 = (b.dir == .output) ∧ (pinsWord b).getLsbD 6 = b.driven ∧
    (pinsWord b).getLsbD 7 = false := by
  simp only [pinsWord, getLsbD_append_flag_zero, getLsbD_append_flag_succ, and_self]

/-- PINS above its eight flag places. -/
theorem pinsWord_getLsbD_add_eight : (pinsWord b).getLsbD (n + 8) = ((0 : BitVec 16) ++ b.dout).getLsbD n := by
  simp only [pinsWord, getLsbD_append_flag_succ]

theorem pinsWord_getLsbD_dout (h : n < 8) : (pinsWord b).getLsbD (8 + n) = b.dout.getLsbD n := by
  rw [Nat.add_comm, pinsWord_getLsbD_add_eight, BitVec.getLsbD_append, if_pos h]

theorem pinsWord_getLsbD_of_le (h : 16 ≤ n) : (pinsWord b).getLsbD n = false := by
  obtain ⟨k, rfl⟩ := Nat.exists_eq_add_of_le' h
  rw [pinsWord_getLsbD_add_eight (n := k + 8), BitVec.getLsbD_append]
  simp

theorem configWord_getLsbD_latch : (configWord c).getLsbD 0 = (c.latchPolicy == .skipSame) := by
  rw [configWord, getLsbD_append_flag_zero]

theorem configWord_getLsbD_verify : (configWord c).getLsbD 1 = (c.verifyPolicy == .bounded) := by
  rw [configWord, getLsbD_append_flag_succ, getLsbD_append_flag_zero]

theorem configWord_getLsbD_of_le (h : 2 ≤ n) : (configWord c).getLsbD n = false := by
  obtain ⟨k, rfl⟩ := Nat.exists_eq_add_of_le' h
  rw [configWord, getLsbD_append_flag_succ, getLsbD_append_flag_succ]
  simp

/-! ### After reset -/

theorem resultWord_reset : resultWord Block.reset = 0 := rfl

theorem statusWord_reset : statusWord Block.reset = 0 := by decide

theorem pinsWord_reset : pinsWord Block.reset = 0x00000018 := by decide

end Sys2Proof.Machine
end

section
/-! The obligations on the host register port and on reset (spec/10_state.md R31 to R41, R44). -/

namespace Sys2Proof.Machine

/-- R44: the reset block holds every listed value. -/
theorem atResetValues_reset : AtResetValues Block.reset := by
  simp [AtResetValues, Block.reset, noDesc]

/-- Settles O43: every index is the `regIndex` of its register or reserved. -/
theorem registerReads : Obligations.RegisterReads := by
  refine ⟨fun idx s => perform_read s idx, fun s => ?_⟩
  have read := readReg_regIndex s
  refine ⟨read .cmd, read .addr, read .curAddr, read .retryCap, read .tLatch, read .tShift, read .tSettle,
    read (.chip .capacity), read (.chip .clock), read (.chip .wc), read (.chip .wp), read (.chip .oe),
    read (.chip .od), read (.chip .acc), fun T hT => ?_, fun hnone idx hlo hhi => ?_,
    readReg_reserved s (.inl rfl), fun idx h => readReg_reserved s (.inr h)⟩
  · have act := readReg_act_bound s hT
    exact ⟨act .capacity, act .clock, act .wc, act .wp, act .oe, act .od, act .acc⟩
  · obtain ⟨r, rfl⟩ | hres := index_cases idx
    · obtain ⟨f, rfl⟩ := (act_range_iff r).mp ⟨hlo, hhi⟩
      exact readReg_act_unbound s hnone f
    · exact readReg_reserved s hres

/-- Settles O44: each register with fields bit by bit, and the three reset words. -/
theorem fieldRegisterReads : Obligations.FieldRegisterReads := by
  intro s
  have hresult : readReg s 0x02 = resultWord s.blk := readReg_regIndex s .result
  have hstatus : readReg s 0x03 = statusWord s.blk := readReg_regIndex s .status
  have hpins : readReg s 0x05 = pinsWord s.blk := readReg_regIndex s .pins
  have hconfig : readReg s 0x06 = configWord s.cfg := readReg_regIndex s .config
  rw [hresult, hstatus, hpins, hconfig]
  obtain ⟨hclk, hdat, hlat, hoe, hwe, hdir, hdriven, hgap⟩ := pinsWord_getLsbD_flags s.blk
  exact ⟨fun n => resultWord_getLsbD s.blk, fun n => resultWord_getLsbD_of_le s.blk,
    fun n => statusWord_getLsbD_code s.blk, statusWord_code s.blk,
    statusWord_getLsbD_open s.blk, statusWord_getLsbD_chipSet s.blk, fun n => statusWord_getLsbD_of_le s.blk,
    hclk, hdat, hlat, hoe, hwe, hdir, hdriven, hgap,
    fun n => pinsWord_getLsbD_dout s.blk, fun n => pinsWord_getLsbD_of_le s.blk,
    configWord_getLsbD_latch s.cfg, configWord_getLsbD_verify s.cfg, fun n => configWord_getLsbD_of_le s.cfg,
    (readReg_regIndex State.reset .result).trans resultWord_reset,
    (readReg_regIndex State.reset .status).trans statusWord_reset,
    (readReg_regIndex State.reset .pins).trans pinsWord_reset⟩

/-- Settles O45: a write to a mapped register is `writeReg`, a write to a reserved index is nothing. -/
theorem registerWrites : Obligations.RegisterWrites := by
  refine ⟨fun idx s h => ?_, fun idx s => ⟨_, perform_read s idx⟩, fun w s => ?_⟩
  · have h0 : readReg s idx = 0 := by
      obtain rfl | hres := h
      · exact readReg_regIndex s .cmd
      · exact readReg_reserved s hres
    rw [perform_read, h0]
  · have write (f : DescField) := hostWrite_regIndex s w (r := .chip f) nofun
    refine ⟨hostWrite_regIndex s w (r := .addr) nofun, write .capacity, write .clock, write .wc, write .wp, write .oe,
      write .od, write .acc, fun idx hcmd haddr hchip => ?_⟩
    obtain ⟨r, rfl⟩ | hres := index_cases idx
    · have hr : r ≠ .cmd := fun h => hcmd (by rw [h, regIndex])
      rw [hostWrite_regIndex s w hr, writeReg_readOnly s w (fun h => haddr (by rw [h, regIndex]))
        (fun f h => hchip ((chip_range_iff r).mpr ⟨f, h⟩))]
    · exact hostWrite_reserved s w hres

/-- Settles O57: the reset operation puts the block at `Block.reset` and touches nothing else. -/
theorem resetGivesListedValues : Obligations.ResetGivesListedValues :=
  ⟨atResetValues_reset, fun s => ⟨atResetValues_reset, resetBlock_trace s, resetBlock_env s, resetBlock_cfg s,
    resetBlock_host s, resetBlock_replies s⟩⟩

end Sys2Proof.Machine
end

section
/-! SUPPORT. The reduced address (spec/20_memory.md R64): the number it is, and the readings the rule gives for powers of
two, for large capacities and for aliases. -/

namespace Sys2Proof.Machine

variable (addr : Word) {cap : Word}

theorem addressable_le : addressable cap ≤ 65536 := Nat.min_le_right _ _

theorem addressable_pos (h : cap ≠ 0) : 0 < addressable cap :=
  Nat.lt_min.mpr ⟨Nat.pos_of_ne_zero fun h0 => h (BitVec.eq_of_toNat_eq h0), by decide⟩

theorem mod_addressable_lt (h : cap ≠ 0) : addr.toNat % addressable cap < addressable cap :=
  Nat.mod_lt _ (addressable_pos h)

/-- Sixteen bits hold every remainder, so the reduction loses nothing. -/
theorem reduce_toNat (h : cap ≠ 0) : (reduce addr cap).toNat = addr.toNat % addressable cap :=
  (BitVec.toNat_ofNat _ _).trans (Nat.mod_eq_of_lt ((mod_addressable_lt addr h).trans_le addressable_le))

theorem reduce_lt (h : cap ≠ 0) : (reduce addr cap).toNat < addressable cap := by
  rw [reduce_toNat addr h]
  exact mod_addressable_lt addr h

/-- Masking with `cap - 1` takes the remainder where `cap` is a power of two. -/
theorem toNat_and_sub_one {k : Nat} (h : cap.toNat = 2 ^ k) : (addr &&& (cap - 1)).toNat = addr.toNat % 2 ^ k := by
  have hle : (1 : Word) ≤ cap := by
    rw [BitVec.le_def, h]
    exact Nat.one_le_two_pow
  rw [BitVec.toNat_and, BitVec.toNat_sub_of_le hle, h]
  exact Nat.and_two_pow_sub_one_eq_mod _ _

theorem reduce_of_two_pow {k : Nat} (hk : k ≤ 16) (h : cap.toNat = 2 ^ k) :
    reduce addr cap = (addr &&& (cap - 1)).setWidth 16 := by
  have hcap : addressable cap = 2 ^ k := by
    rw [addressable, h]
    exact Nat.min_eq_left (Nat.pow_le_pow_right Nat.two_pos hk)
  rw [reduce, hcap, ← toNat_and_sub_one addr h, BitVec.ofNat_toNat]

theorem reduce_of_le (h : 65536 ≤ cap.toNat) : reduce addr cap = addr.setWidth 16 := by
  rw [reduce, addressable, Nat.min_eq_right h]
  refine BitVec.eq_of_toNat_eq ?_
  rw [BitVec.toNat_ofNat, BitVec.toNat_setWidth]
  exact Nat.mod_mod _ _

/-- Aliases: addresses a multiple of the reachable addresses apart are reduced alike. -/
theorem reduce_congr {a b : Word} {k : Nat} (h : a.toNat = b.toNat + k * addressable cap) :
    reduce a cap = reduce b cap := by
  rw [reduce, h, Nat.add_mul_mod_self_right, reduce]

end Sys2Proof.Machine
end

section
/-! SUPPORT. READ as one replay, WRITE up to its verify loop as one replay, and where the two keep the reduced address
(spec/20_memory.md R64, spec/43_read_cycle.md R181, spec/44_write_verify_cycle.md R201 to R206). -/

namespace Sys2Proof.Machine

/-- No event writes `S.a_eff`. -/
@[simp] theorem absorbAll_aEff (es : List Event) (b : Block) : (absorbAll es b).aEff = b.aEff := by
  induction es generalizing b with
  | nil => rfl
  | cons e es ih =>
    rw [absorbAll_cons, ih]
    cases e with
    | pin p l => cases p <;> rfl
    | _ => rfl

/-- The registers after RD1 to RD4 (R181). -/
theorem absorbAll_readLead (c : Cfg) (T : ChipDesc) (cur a : Addr16) (b : Block) :
    absorbAll (Trace.readLead c T cur a) b =
      { b with dir := .input
               oe := false
               clk := if Trace.skip c cur a then b.clk else false
               dat := if Trace.skip c cur a then b.dat else a.getLsbD 0
               lat := if Trace.skip c cur a then b.lat else false } := by
  simp [Trace.readLead, absorbAll_append, absorbAll_setAddress]

/-- RD1 to RD5: the events before the sample, the sample, the result (R181, R183). -/
theorem readFromRD1_eq (T : ChipDesc) (s : State) :
    let lead := Trace.readLead s.cfg T s.blk.curAddr s.blk.aEff
    let v := sample (replay lead s)
    readFromRD1 T s = .next (complete (zext9 v) (setCurAddr s.blk.aEff (replay (lead ++ [.smp v]) s))) := by
  intro lead v
  set t := atPhase .rd5 (setCurAddr s.blk.aEff (replay lead s)) with ht
  have hphases : atPhase .rd5 (readRD4 T (readRD3 (readRD2 T (readRD1 s)))) = t := by
    rw [readPhases_eq_replay, atPhase_atPhase]
  have hdir : t.blk.dir = .input := by simp [ht, lead, absorbAll_readLead]
  have hv : sample t = v := by simp [ht, v]
  rw [readFromRD1, readFromRD2, readFromRD3, readFromRD4, readFromRD5, hphases, readByte_input hdir, hv, andThen_next,
    ht, emit_atPhase, emit_setCurAddr, replay_append]
  rfl

/-- READ in a session with a chip bound leaves the operand it latched in `S.a_eff`. -/
theorem exec_read_aEff {s : State} {T : ChipDesc} (ho : s.blk.isOpen = true) (hT : s.blk.chip = some T) :
    ∃ t, exec .read s = .next t ∧ t.blk.aEff = reduce s.blk.addrReg T.capacity := by
  have hrun : exec .read s = readFromRD1 T (latchAddress T s) := withSession_bound ho hT _
  refine ⟨_, hrun.trans (readFromRD1_eq T _), ?_⟩
  simp only [complete_blk, setCurAddr_blk, replay_blk, absorbAll_aEff, latchAddress]

/-- WR1 to WR5 (R201 to R205). -/
theorem writeLoopEntry_eq_replay (T : ChipDesc) (s : State) :
    let t := atPhase .wr5 (setCurAddr s.blk.aEff
      (replay (Trace.writeLead s.cfg T s.blk.curAddr s.blk.aEff s.blk.wval) s))
    writeWR5 (writeWR4 T (writeWR3 (writeWR2 (writeWR1 T s)))) = { t with blk := { t.blk with iter := 0 } } := by
  rw [writePhases_eq_replay]
  simp only [writeWR5, setDirectionInput, Trace.writeLead, replay_append (fs := [.dir .input]), atPhase_atPhase,
    emit_atPhase, emit_setCurAddr, replay_cons, replay_nil]

/-- A verify iteration does not write `S.a_eff` (R206 to R209). -/
theorem writeFromWR6a_aEff (T : ChipDesc) {s : State} (hd : s.blk.dir = .input) :
    ∃ t, writeFromWR6a T s = .next t ∧ t.blk.aEff = s.blk.aEff := by
  refine ⟨_, writeFromWR6a_eq T s hd, ?_⟩
  simp only [afterTest_keeps]

/-- The steps of WRITE do not write `S.a_eff` (R201 to R209). -/
theorem writeFromWR1_aEff (T : ChipDesc) (s : State) :
    ∃ t, writeFromWR1 T s = .next t ∧ t.blk.aEff = s.blk.aEff := by
  have hdir : (writeWR5 (writeWR4 T (writeWR3 (writeWR2 (writeWR1 T s))))).blk.dir = .input := rfl
  obtain ⟨t, hrun, ha⟩ := writeFromWR6a_aEff T hdir
  refine ⟨t, hrun, ha.trans ?_⟩
  simp [writeLoopEntry_eq_replay]

/-- WRITE in a session with a chip bound leaves the operand it latched in `S.a_eff`. -/
theorem exec_write_aEff {s : State} {T : ChipDesc} (ho : s.blk.isOpen = true) (hT : s.blk.chip = some T) (v : Byte) :
    ∃ t, exec (.write v) s = .next t ∧ t.blk.aEff = reduce s.blk.addrReg T.capacity := by
  have hrun : exec (.write v) s = writeFromWR1 T (latchValue v (latchAddress T s)) := withSession_bound ho hT _
  rw [hrun]
  exact writeFromWR1_aEff T (latchValue v (latchAddress T s))

end Sys2Proof.Machine
end

section
/-! The obligation on the reduced address (spec/20_memory.md R64). -/

namespace Sys2Proof.Machine

/-- Settles O13: the reduction is the remainder, READ and WRITE latch it and none of their events writes it again. -/
theorem addressReduction : Obligations.AddressReduction := by
  refine ⟨fun addr _ => reduce_toNat addr, fun addr _ => reduce_lt addr, fun addr _ _ => reduce_of_two_pow addr,
    fun addr _ => reduce_of_le addr, fun _ _ _ _ => reduce_congr, fun s T hinv hopen hchip => ?_⟩
  have hcap : T.capacity ≠ 0 := hinv.usable T hchip
  have hpos : 1 ≤ T.capacity.toNat := (addressable_pos hcap).trans_le (Nat.min_le_left _ _)
  exact ⟨hpos, exec_read_aEff hopen hchip, exec_write_aEff hopen hchip⟩

end Sys2Proof.Machine
end

section
/-! SUPPORT. The command word (spec/30_encoding.md R91 to R95): its three fields, the decoder and the encoder as inverses
of each other, the rows of the opcode map and the words that meet none of them. -/

namespace Sys2Proof

variable (w : Word) (i : Instr)

/-! ### The fields of a word (R91) -/

@[simp] theorem opcField_cmd32 (rsv : BitVec 16) (data opc : Byte) : opcField (cmd32 rsv data opc) = opc :=
  BitVec.extractLsb'_append_eq_right

@[simp] theorem dataField_cmd32 (rsv : BitVec 16) (data opc : Byte) : dataField (cmd32 rsv data opc) = data := by
  rw [dataField, cmd32, BitVec.extractLsb'_append_eq_of_le (le_refl 8)]
  exact BitVec.extractLsb'_append_eq_right

@[simp] theorem rsvField_cmd32 (rsv : BitVec 16) (data opc : Byte) : rsvField (cmd32 rsv data opc) = rsv := by
  rw [rsvField, cmd32, BitVec.extractLsb'_append_eq_of_le (by decide)]
  exact BitVec.extractLsb'_append_eq_left

/-- The three fields are the whole word. -/
theorem cmd32_fields : cmd32 (rsvField w) (dataField w) (opcField w) = w := by
  rw [cmd32, rsvField, dataField, opcField, BitVec.extractLsb'_append_extractLsb'_eq_extractLsb' (by decide),
    BitVec.extractLsb'_append_extractLsb'_eq_extractLsb' (by decide)]
  exact BitVec.extractLsb'_eq_self

theorem opcField_toNat : (opcField w).toNat = w.toNat % 256 := by
  rw [opcField, BitVec.extractLsb'_toNat, Nat.shiftRight_zero]

theorem dataField_toNat : (dataField w).toNat = w.toNat / 256 % 256 := by
  rw [dataField, BitVec.extractLsb'_toNat, Nat.shiftRight_eq_div_pow]

theorem rsvField_toNat : (rsvField w).toNat = w.toNat / 65536 := by
  rw [rsvField, BitVec.extractLsb'_toNat, Nat.shiftRight_eq_div_pow]
  exact Nat.mod_eq_of_lt (Nat.div_lt_of_lt_mul w.isLt)

/-- R94's list, said of the fields. -/
theorem illegalWord_iff_fields :
    illegalWord w = true ↔
      opcField w = 0 ∨ 6 ≤ opcField w ∨ rsvField w ≠ 0 ∨ (1 ≤ opcField w ∧ opcField w ≤ 4) ∧ dataField w ≠ 0 := by
  simp [illegalWord, BitVec.le_def, ← BitVec.toNat_inj, opcField_toNat, dataField_toNat, rsvField_toNat, or_assoc]

/-! ### Decoder and encoder (R95, R97) -/

@[simp] theorem decode_encode : decode (encode i) = .ok i := by
  cases i <;> simp [encode, decode]

/-- A word that decodes to a command is the command's own word. -/
theorem encode_of_decode_eq_ok {w : Word} {i : Instr} (h : decode w = .ok i) : encode i = w := by
  rw [decode] at h
  rw [← cmd32_fields w]
  split_ifs at h with hrsv h5 hdata h1 h2 h3 h4 <;> cases h
  · rw [encode, not_not.mp hrsv, h5]
  · rw [encode, not_not.mp hrsv, not_not.mp hdata, h1]
  · rw [encode, not_not.mp hrsv, not_not.mp hdata, h2]
  · rw [encode, not_not.mp hrsv, not_not.mp hdata, h3]
  · rw [encode, not_not.mp hrsv, not_not.mp hdata, h4]

/-- OPC 0 is the opcode of no command (R92). -/
theorem opcField_encode_ne_zero : opcField (encode i) ≠ 0 := by
  cases i <;> simp [encode]

/-- R92 and R94 of each command's own word. -/
theorem encodeMatches : Laws.EncodeMatches.Statement i := by
  cases i with
  | openCmd => exact Laws.EncodeMatches.openCmd
  | closeCmd => exact Laws.EncodeMatches.closeCmd
  | setchip => exact Laws.EncodeMatches.setchip
  | read => exact Laws.EncodeMatches.read
  | write v => exact Laws.EncodeMatches.write v

/-- A word is rejected or is the word of a command. -/
theorem decode_cases : (∃ e, decode w = .error e) ∨ ∃ i, encode i = w := by
  cases h : decode w with
  | error e => exact .inl ⟨e, rfl⟩
  | ok i => exact .inr ⟨i, encode_of_decode_eq_ok h⟩

theorem decode_error_iff : (∃ e, decode w = .error e) ↔ ∀ i, encode i ≠ w := by
  constructor
  · rintro ⟨e, he⟩ i rfl
    rw [decode_encode] at he
    cases he
  · exact fun h => (decode_cases w).resolve_right fun ⟨i, hi⟩ => h i hi

/-! ### The illegal words (R94) -/

theorem illegalWord_encode : illegalWord (encode i) = false := by
  simpa [wordWf] using (encodeMatches i).2

/-- The decoder rejects words of R94's list only. -/
theorem illegalWord_of_decode_eq_error {w : Word} {e : Illegal} (h : decode w = .error e) : illegalWord w = true := by
  rw [illegalWord_iff_fields]
  rw [decode] at h
  split_ifs at h with hrsv h5 hdata h1 h2 h3 h4
  · exact .inr (.inr (.inl hrsv))
  · bv_omega
  · bv_omega

/-- R94's list and the decoder reject the same words. -/
theorem illegalWord_iff_decode_error : illegalWord w = true ↔ ∃ e, decode w = .error e := by
  refine ⟨fun h => ?_, fun ⟨_, he⟩ => illegalWord_of_decode_eq_error he⟩
  rw [decode_error_iff]
  rintro i rfl
  rw [illegalWord_encode] at h
  cases h

/-! ### The rows of the opcode map (R92) -/

/-- The command of the row of `i` with `d` as its operand, where the row has one. -/
def Instr.withData (d : Byte) : Instr → Instr
  | .write _ => .write d
  | i        => i

/-- The row does not depend on the operand. -/
theorem row_withData (d : Byte) :
    maskBits (i.withData d) = maskBits i ∧ matchBits (i.withData d) = matchBits i := by
  cases i <;> exact ⟨rfl, rfl⟩

/-- WRITE's mask leaves RSV and OPC and drops DATA. -/
theorem fields_and_writeMask :
    rsvField (w &&& 0xFFFF00FF) = rsvField w ∧ opcField (w &&& 0xFFFF00FF) = opcField w := by
  rw [rsvField, rsvField, opcField, opcField, BitVec.extractLsb'_and, BitVec.extractLsb'_and]
  exact ⟨BitVec.and_allOnes, BitVec.and_allOnes⟩

/-- A word that meets a row is the word of the row's command, its own DATA the operand. -/
theorem encode_withData_of_meets {w : Word} {i : Instr} (h : w &&& maskBits i = matchBits i) :
    encode (i.withData (dataField w)) = w := by
  cases i with
  | write v =>
    obtain ⟨hrsv, hopc⟩ := fields_and_writeMask w
    rw [show w &&& 0xFFFF00FF = 0x00000005 from h] at hrsv hopc
    rw [← cmd32_fields w, ← hrsv, ← hopc, dataField_cmd32]
    rfl
  | _ => exact (BitVec.and_allOnes.symm.trans h).symm

/-- R92: a word meets a row exactly when it decodes to the row's command. -/
theorem meets_iff_decode_eq_ok :
    w &&& maskBits i = matchBits i ↔ decode w = .ok (i.withData (dataField w)) := by
  constructor
  · intro h
    rw [← decode_encode (i.withData (dataField w)), encode_withData_of_meets h]
  · intro h
    obtain ⟨hmask, hmatch⟩ := row_withData i (dataField w)
    have hrow := (encodeMatches (i.withData (dataField w))).1
    rwa [encode_of_decode_eq_ok h, hmask, hmatch] at hrow

/-- A word meets a row of the opcode map exactly when it is the word of a command. -/
theorem meets_some_row_iff : (∃ i, w &&& maskBits i = matchBits i) ↔ ∃ i, encode i = w := by
  constructor
  · exact fun ⟨_, hi⟩ => ⟨_, encode_withData_of_meets hi⟩
  · rintro ⟨i, rfl⟩
    exact ⟨i, (encodeMatches i).1⟩

end Sys2Proof

namespace Sys2Proof.Machine

/-- With the block idle, `raise` changes CODE and RESULT only (R261, R262). -/
theorem raise_of_idle {s : State} (c : Code) (h : s.blk.seq = .idle) :
    raise c s = { s with blk := { s.blk with code := c, result := sentinel } } := by
  rw [raise, ← h]

/-- A write of a word the decoder rejects to CMD (R94). -/
theorem hostWrite_cmd_of_decode_error {w : Word} (s : State) (h : ∃ e, decode w = .error e) :
    hostWrite (regIndex .cmd) w s = .next (raise .badCmd s) := by
  obtain ⟨e, he⟩ := h
  rw [hostWrite, regAt_regIndex]
  simp only [runCommand, he]

end Sys2Proof.Machine
end

section
/-! The obligations on the encoding of commands (spec/30_encoding.md R92, R94). -/

namespace Sys2Proof.Machine

/-- Settles O2: each clause is `meets_iff_decode_eq_ok` at a row; no command's word has OPC 0. -/
theorem opcodeMapSelects : Obligations.OpcodeMapSelects := by
  refine ⟨fun w => ?_, fun w h0 => ?_⟩
  · have row := meets_iff_decode_eq_ok w
    exact ⟨row .openCmd, row .closeCmd, row .setchip, row .read, row (.write 0)⟩
  · rw [decode_error_iff]
    rintro i rfl
    exact opcField_encode_ne_zero i h0

/-- Settles O4: the words that meet no row, R94's list and the decoder's rejections are the words of no command, and
BAD_CMD is raised in an idle block. -/
theorem illegalWordRaisesBadCmd : Obligations.IllegalWordRaisesBadCmd := by
  refine ⟨fun w => ?_, illegalWord_iff_decode_error, fun w s hw hidle => ?_, rfl⟩
  · rw [illegalWord_iff_decode_error, decode_error_iff, ← not_exists, ← meets_some_row_iff, not_exists]
  · have hdec := (illegalWord_iff_decode_error w).mp hw
    exact (hostWrite_cmd_of_decode_error s hdec).trans (congrArg _ (raise_of_idle .badCmd hidle))

end Sys2Proof.Machine
end

section
/-! SUPPORT. The output registers of the control pins (spec/10_state.md R23), and a replay as an update of the fields it
writes. -/

namespace Sys2Proof.Machine

/-- A write reaches the register of its own pin and of no other (R23, R120). -/
theorem pinLevel_writePin (b : Block) (p q : Pin) (l : Level) :
    pinLevel (b.writePin p l) q = if q = p then l else pinLevel b q := by
  cases p <;> cases q <;> rfl

@[simp] theorem writePin_driven (b : Block) (p : Pin) (l : Level) : (b.writePin p l).driven = b.driven := by
  cases p <;> rfl

/-- While the drivers are off no register reaches its wire (R23). -/
theorem controlPin_of_undriven {b : Block} (h : b.driven = false) (p : Pin) : controlPin b p = none := by
  simp [controlPin, h]

/-- A list of events writes the block, the environment and the trace, and nothing else (R10). -/
theorem replay_eq_update (es : List Event) (s : State) :
    replay es s =
      { s with blk := absorbAll es s.blk, env := (replay es s).env, trace := s.trace ++ es } := by
  apply State.eq_of_fields <;> simp

/-- `SetPin` writes one register of the block, whatever the wait (R120). -/
theorem setPin_blk (p : Pin) (l : Level) (d : Word) (s : State) :
    (setPin p l d s).blk = s.blk.writePin p l := by
  rw [setPin_eq_replay, replay_blk, absorbAll_setPin]

end Sys2Proof.Machine
end

section
/-! The obligations on the pin primitives (spec/40_pin_primitives.md R120, R122). -/

namespace Sys2Proof.Machine

/-- Settles O5: `SetPin` replays its event and its wait, which write the pin's register and no other. -/
theorem setPinWritesThenWaits : Obligations.SetPinWritesThenWaits := by
  intro p l d s
  refine ⟨?state, ?own, fun q hq => ?other, fun hoff => ?wire⟩
  case state =>
    have hstate := replay_eq_update (Trace.setPin p l d) s
    rw [absorbAll_setPin] at hstate
    exact (setPin_eq_replay p l d s).trans hstate
  case own => rw [setPin_blk, pinLevel_writePin, if_pos rfl]
  case other => rw [setPin_blk, pinLevel_writePin, if_neg hq]
  case wire => exact controlPin_of_undriven (by rw [setPin_blk, writePin_driven, hoff]) p

/-- Settles O6: `Delay` replays its wait, which writes no register and lasts `d`. -/
theorem delayEmitsItsWait : Obligations.DelayEmitsItsWait := by
  intro d s
  rw [delay_eq_replay]
  constructor
  · have hstate := replay_eq_update (Trace.wait d) s
    rwa [absorbAll_wait] at hstate
  · rw [replay_now, Trace.duration_wait]

end Sys2Proof.Machine
end

section
/-! SUPPORT. What a shift/latch sequence counts for (spec/41_address_latch.md R142 to R145). -/

namespace Sys2Proof.Trace

open Machine

@[simp] theorem length_setPin (p : Pin) (l : Level) (d : Word) :
    (setPin p l d).length = 1 + if d = 0 then 0 else 1 := by
  rw [setPin, List.length_cons, length_wait, Nat.add_comm]

variable (c : Cfg) (a : Addr16) (l : Level)

@[simp] theorem length_shiftBit : (shiftBit c l).length = 3 + if c.tShift = 0 then 0 else 2 := by
  rw [shiftBit, List.length_cons, List.length_append, length_setPin, length_setPin]
  split <;> rfl

/-- One bit takes one clock pulse (R142). -/
@[simp] theorem writes_clk_shiftBit (m : Level) : writes .clk l (shiftBit c m) = 1 := by
  cases l <;> simp [shiftBit, writes_append]

/-- A bit does not touch the latch line (R142). -/
@[simp] theorem writes_lat_shiftBit (m : Level) : writes .lat l (shiftBit c m) = 0 := by
  simp [shiftBit, writes_append]

theorem length_bits (bs : List Level) :
    (bs.flatMap (shiftBit c)).length = bs.length * (3 + if c.tShift = 0 then 0 else 2) := by
  simp [List.length_flatMap]

/-- A row of bits writes a pin as often as it has bits, times what every bit writes. -/
theorem writes_bits {p : Pin} {n : Nat} (bs : List Level) (h : ∀ m, writes p l (shiftBit c m) = n) :
    writes p l (bs.flatMap (shiftBit c)) = bs.length * n := by
  induction bs with
  | nil => simp
  | cons b bs ih => rw [List.flatMap_cons, writes_append, h, ih, List.length_cons, Nat.succ_mul, Nat.add_comm]

/-- Sixteen clock pulses (R145). -/
@[simp] theorem writes_clk_shiftLatch : writes .clk l (shiftLatch c a) = 16 := by
  rw [shiftLatch, writes_append, writes_bits c l _ (writes_clk_shiftBit c l)]
  simp [latchPulse, writes_append]

/-- One latch pulse (R144, R145). -/
@[simp] theorem writes_lat_shiftLatch : writes .lat l (shiftLatch c a) = 1 := by
  rw [shiftLatch, writes_append, writes_bits c l _ (writes_lat_shiftBit c l)]
  cases l <;> simp [latchPulse, writes_append]

theorem pins_shiftLatch : pins (shiftLatch c a) = 50 := by
  obtain ⟨-, -, -, -, hbits⟩ := counts_bits c (addressBits a)
  rw [shiftLatch, pins_append, hbits]
  simp [latchPulse, pins_append]

/-- The data line carries the address, most significant bit first (R65, R145). -/
theorem datLevels_shiftLatch : datLevels (shiftLatch c a) = addressBits a := by
  obtain ⟨-, -, -, hbits, -⟩ := counts_bits c (addressBits a)
  rw [shiftLatch, datLevels_append, hbits]
  simp [latchPulse, datLevels_append]

theorem length_shiftLatch :
    (shiftLatch c a).length = 50 + (if c.tShift = 0 then 0 else 32) + (if c.tLatch = 0 then 0 else 2) := by
  rw [shiftLatch, List.length_append, length_bits, latchPulse, List.length_append, length_setPin, length_setPin,
    length_addressBits]
  split_ifs <;> rfl

end Sys2Proof.Trace

namespace Sys2Proof.Machine

variable (outer : AddrPhase → Phase) (a : Addr16) (s : State)

/-! ### The two branches of `SetAddress` (R147) -/

/-- The phase `ShiftLatch` is called in does not matter. -/
theorem shiftLatch_atPhase (p : Phase) : shiftLatch outer a (atPhase p s) = shiftLatch outer a s := by
  rw [shiftLatch_eq_replay, shiftLatch_eq_replay, replay_atPhase, atPhase_atPhase, atPhase_cfg]

variable {a s}

theorem skips_iff : skips a s = true ↔ s.cfg.latchPolicy = .skipSame ∧ a = s.blk.curAddr := by
  rw [skips, Bool.and_eq_true, beq_iff_eq, beq_iff_eq]

theorem setAddress_of_skips (h : skips a s = true) :
    setAddress outer a s = setCurAddr a (atPhase (outer .test) s) := by
  rw [setAddress, if_pos h]

theorem setAddress_of_not_skips (h : ¬ skips a s = true) :
    setAddress outer a s = setCurAddr a (shiftLatch outer a s) := by
  rw [setAddress, if_neg h, shiftLatch_atPhase]

end Sys2Proof.Machine
end

section
/-! The obligations on the address latch driver (spec/41_address_latch.md R145 to R147). -/

namespace Sys2Proof.Machine

/-- Settles O7: `ShiftLatch` replays the events of R145, which are counted bit by bit, and its sixteen bits replace the
whole shift stage of the reference latch. -/
theorem shiftLatchSendsAddress : Obligations.ShiftLatchSendsAddress := by
  intro outer a s
  have hrun := shiftLatch_eq_replay outer a s
  refine ⟨?trace, Trace.datLevels_shiftLatch s.cfg a, Trace.pins_shiftLatch s.cfg a,
    Trace.writes_clk_shiftLatch s.cfg a true, Trace.writes_clk_shiftLatch s.cfg a false,
    Trace.writes_lat_shiftLatch s.cfg a true, Trace.writes_lat_shiftLatch s.cfg a false,
    Trace.length_shiftLatch s.cfg a, Trace.duration_shiftLatch s.cfg a, ?registers, fun hdriven hclk hlat => ?latch⟩
  case trace => rw [hrun, atPhase_trace, replay_trace]
  case registers => rw [hrun, atPhase_blk, replay_blk, absorbAll_shiftLatch]
  case latch =>
    rw [hrun, atPhase_env]
    exact replay_shiftLatch_latch s.cfg a s hdriven hclk hlat

/-- Settles O8: either branch of the test ends by caching `a`, after nothing but the phase or after `ShiftLatch`. -/
theorem setAddressSkipsOrLatches : Obligations.SetAddressSkipsOrLatches := by
  intro outer a s
  refine ⟨rfl, fun hpolicy hsame => ?skip, fun hfresh => ?latch⟩
  case skip =>
    rw [setAddress_of_skips outer (skips_iff.mpr ⟨hpolicy, hsame⟩), hsame]
    exact ⟨rfl, rfl, rfl⟩
  case latch =>
    have hskip : ¬ skips a s = true := by
      rw [skips_iff]
      rintro ⟨hpolicy, hsame⟩
      obtain halways | hne := hfresh
      · rw [halways] at hpolicy
        cases hpolicy
      · exact hne hsame
    obtain ⟨htrace, -⟩ := shiftLatchSendsAddress outer a s
    rw [setAddress_of_not_skips outer hskip, setCurAddr_trace, setCurAddr_env, setCurAddr_blk]
    exact ⟨htrace, rfl, rfl⟩

end Sys2Proof.Machine
end

section
/-! SUPPORT. The data lines in each direction (spec/10_state.md R24), and an event as an update of the fields it writes. -/

namespace Sys2Proof.Machine

/-- An event writes the block by `absorb`, the environment and the trace, and nothing else (R10). -/
theorem emit_eq_update (e : Event) (s : State) :
    emit e s = { s with blk := s.blk.absorb e, env := (emit e s).env, trace := s.trace ++ [e] } := rfl

variable {b : Block}

/-- In input direction the block drives no data line (R24, R161). -/
theorem dataLine_of_input (h : b.dir = .input) (n : Fin 8) : dataLine b n = none := by
  simp [dataLine, h]

/-- In output direction line `n` carries bit `n` of the output register (R24, R162). -/
theorem dataLine_of_output (h : b.dir = .output) (n : Fin 8) : dataLine b n = some (b.dout.getLsbD n.val) := by
  rw [dataLine, if_pos h]

variable (v : Byte) (s : State)

@[simp] theorem setDirectionInput_blk : (setDirectionInput s).blk = { s.blk with dir := .input } := rfl
@[simp] theorem setDirectionOutput_blk : (setDirectionOutput s).blk = { s.blk with dir := .output } := rfl
@[simp] theorem writeByte_blk : (writeByte v s).blk = { s.blk with dout := v } := rfl

/-- No hidden direction switch (R165). -/
theorem writeByte_dir : (writeByte v s).blk.dir = s.blk.dir := by
  rw [writeByte_blk]

/-- A switch to output puts the output register on the lines (R162). -/
theorem dataLine_setDirectionOutput (n : Fin 8) :
    dataLine (setDirectionOutput s).blk n = some (s.blk.dout.getLsbD n.val) := by
  rw [dataLine_of_output] <;> rw [setDirectionOutput_blk]

end Sys2Proof.Machine
end

section
/-! The obligations on the data bus driver (spec/42_data_bus.md R161 to R165). -/

namespace Sys2Proof.Machine

/-- Settles O10: each procedure is one event, and the lines follow the direction, which `WriteByte` does not write. -/
theorem dataBusDriverWrites : Obligations.DataBusDriverWrites := by
  intro v s
  refine ⟨emit_eq_update (.dir .input) s, emit_eq_update (.dir .output) s, emit_eq_update (.drv v) s,
    writeByte_dir v s, dataLine_of_input ?inputDir, dataLine_setDirectionOutput s, fun hout n => ?driven,
    fun hin n => ⟨?undriven, ?later⟩⟩
  case inputDir => rw [setDirectionInput_blk]
  case driven => rw [dataLine_of_output ((writeByte_dir v s).trans hout), writeByte_blk]
  case undriven => exact dataLine_of_input ((writeByte_dir v s).trans hin) n
  case later => rw [dataLine_setDirectionOutput, writeByte_blk]

/-- Settles O11: packing the lines gives the sampled byte back, and its event writes no register. -/
theorem readByteSamplesInput : Obligations.ReadByteSamplesInput := by
  intro s
  refine ⟨fun hin => ⟨sample s, ?next, rfl, fun n => ?bit⟩, readByte_output⟩
  case next =>
    have hevent := emit_eq_update (.smp (sample s)) s
    exact (readByte_input hin).trans (congrArg (fun t => Host.Outcome.next (sample s, t)) hevent)
  case bit => rw [getPin]

end Sys2Proof.Machine
end

section
/-! SUPPORT. READ in a session as one update of the state, the samples its events take, and the external latch over
them (spec/43_read_cycle.md R181 to R183). -/

namespace Sys2Proof.Trace

open Machine

variable (c : Cfg) (T : ChipDesc) (cur a : Addr16)

/-- The events of READ before OE falls, RD1 to RD3 (R181). -/
def readSetup : List Event := .dir .input :: (setPin .oe true T.od ++ setAddress c cur a)

/-- OE falls and is held once the address stands (R182). -/
theorem readLead_eq : readLead c T cur a = readSetup c T cur a ++ setPin .oe false T.oe := rfl

/-- READ takes no sample before its last event (R183). -/
@[simp] theorem samples_readLead : samples (readLead c T cur a) = 0 := by
  simp [readLead, samples_append, isSample]

end Sys2Proof.Trace

namespace Sys2Proof.Machine

/-- Latching the operand moves no wire (R93). -/
theorem sameWires_latchAddress (T : ChipDesc) (s : State) : SameWires (latchAddress T s).blk s.blk :=
  ⟨rfl, rfl, rfl, rfl, rfl, rfl, rfl, rfl, rfl⟩

/-- READ in a session with a chip bound is the cycle on the operand it latches (R180). -/
theorem exec_read_of_session {s : State} {T : ChipDesc} (ho : s.blk.isOpen = true) (hT : s.blk.chip = some T) :
    exec .read s = readFromRD1 T (latchAddress T s) :=
  withSession_bound ho hT _

/-- After RD1 to RD3 the external latch holds the requested address (R149, R182). -/
theorem replay_readSetup_latch {s : State} (T : ChipDesc) (a : Addr16) (hinv : Inv s) (ho : s.blk.isOpen = true) :
    (replay (Trace.readSetup s.cfg T s.blk.curAddr a) s).env.latch = a := by
  have hsplit : Trace.readSetup s.cfg T s.blk.curAddr a
      = (.dir .input :: Trace.setPin .oe true T.od) ++ Trace.setAddress s.cfg s.blk.curAddr a := rfl
  rw [hsplit, replay_append]
  have hkeep := replay_latch_keep (.dir .input :: Trace.setPin .oe true T.od) s (by simp)
  apply replay_setAddress_latch
  case hd => simpa using hinv.coherent.driven ho
  case hc => simpa using hinv.rest.clk
  case hl => simpa using hinv.rest.lat
  case hcur => exact hkeep.trans (hinv.coherent.latch ho)

end Sys2Proof.Machine
end

section
/-! The obligations on the read cycle (spec/43_read_cycle.md R181 to R183). -/

namespace Sys2Proof.Machine

/-- Settles O14: READ replays its events on the state with the operand latched, whose wires, and so whose environment
and sample, are those of `s`. -/
theorem readRunsItsCycle : Obligations.ReadRunsItsCycle := by
  intro s T ho hT a skip lead v
  have hwires := sameWires_latchAddress T s
  have hv : sample (replay lead (latchAddress T s)) = v := sample_replay_congr lead hwires rfl
  have hcycle : exec .read s
      = .next (complete (zext9 v) (setCurAddr a (replay (lead ++ [.smp v]) (latchAddress T s)))) := by
    rw [exec_read_of_session ho hT, ← hv]
    exact readFromRD1_eq T (latchAddress T s)
  have henv : (replay (lead ++ [.smp v]) (latchAddress T s)).env = (replay (lead ++ [.smp v]) s).env :=
    replay_env_congr _ hwires rfl
  rw [hcycle, replay_eq_update, henv, absorbAll_append, absorbAll_readLead]
  rfl

/-- Settles O15: the events of the cycle before its sample take none. -/
theorem readSamplesOnce : Obligations.ReadSamplesOnce := fun s T ho hT =>
  ⟨_, _, _, readRunsItsCycle s T ho hT, rfl, Trace.samples_readLead _ _ _ _, rfl, rfl⟩

/-- Settles O17: RD1 to RD3 put the address on the external latch, and the fall of OE, its hold and the sample leave it
there. -/
theorem readSamplesAStableAddress : Obligations.ReadSamplesAStableAddress := by
  intro s T hinv ho hT a pre
  have hpre : (replay pre s).env.latch = a := replay_readSetup_latch T a hinv ho
  have hevents : ∀ v, Trace.readLead s.cfg T s.blk.curAddr a ++ [.smp v]
      = pre ++ (.pin .oe false :: (Trace.wait T.oe ++ [.smp v])) := fun v => by
    rw [Trace.readLead_eq, List.append_assoc]
    rfl
  refine ⟨_, _, readRunsItsCycle s T ho hT, congrArg (s.trace ++ ·) (hevents _), rfl, hpre, ?_⟩
  change (replay (Trace.readLead s.cfg T s.blk.curAddr a ++ [.smp _]) s).env.latch = a
  rw [hevents, replay_append, replay_latch_keep _ _ (by simp [Trace.writes_append]), hpre]

end Sys2Proof.Machine
end

section
/-! SUPPORT. One event list replayed from a phase, one verify reading, and the two outcomes of the success test
(spec/44_write_verify_cycle.md R206, R208). -/

namespace Sys2Proof.Machine

variable (T : ChipDesc) (p : Phase) {s : State}

/-- A list of events replayed from phase `p` leaves the block in `p` (R10, R27). -/
theorem replay_atPhase_eq_update (es : List Event) (s : State) :
    replay es (atPhase p s) =
      { s with
        blk := { absorbAll es s.blk with seq := p }
        env := (replay es s).env
        trace := s.trace ++ es } := by
  rw [replay_atPhase, replay_eq_update es s]
  rfl

/-- A verify reading in phase `p` answers the sampled byte, leaves OE high and writes no other register (R206). -/
theorem verifyReading_atPhase (h : s.blk.dir = .input) :
    let x := sample (replay (Trace.setPin .oe false T.oe) s)
    verifyReading T (atPhase p s) = .next (x,
      { s with
        blk := { s.blk with oe := true, seq := p }
        env := (replay (Trace.reading T x) s).env
        trace := s.trace ++ Trace.reading T x }) := by
  intro x
  have hx : sample (replay (Trace.setPin .oe false T.oe) (atPhase p s)) = x := by
    rw [replay_atPhase, sample_atPhase]
  have hin : (atPhase p s).blk.dir = .input := h
  rw [verifyReading_input T hin, hx, replay_atPhase_eq_update, absorbAll_reading]

theorem verified_iff (b : Block) : verified b = true ↔ b.r1 = b.r2 ∧ b.r1 = b.wval := by
  simp [verified]

/-- A failed test leaves the end of the iteration to the termination policy (R208, R209). -/
theorem writeWR6d_of_not_verified (h : ¬ (s.blk.r1 = s.blk.r2 ∧ s.blk.r1 = s.blk.wval)) :
    writeWR6d s = verifyFailed (atPhase .wr6d s) :=
  if_neg ((verified_iff (atPhase .wr6d s).blk).not.mpr h)

end Sys2Proof.Machine
end

section
/-! The obligation on the steps of WRITE (spec/44_write_verify_cycle.md R201, R205, R206, R208). -/

namespace Sys2Proof.Machine

/-- Settles O56: WR1 and WR5 replay their events from their phases, WR6a and WR6b store the byte of one verify reading
each, and WR6d follows the success test. -/
theorem writeStepsDoTheirPart : Obligations.WriteStepsDoTheirPart := by
  intro s T x
  refine ⟨?wr1, ?wr5, fun hin => ⟨?wr6a, ?wr6b⟩, fun hok => ?passed, writeWR6d_of_not_verified⟩
  case wr1 => rw [writeWR1, setPin_eq_replay, replay_atPhase_eq_update, absorbAll_setPin, writePin_oe]
  case wr5 =>
    have hdir : setDirectionInput (atPhase .wr5 s) = _ := replay_atPhase_eq_update .wr5 [.dir .input] s
    rw [writeWR5, hdir]
    rfl
  case wr6a => rw [writeWR6a, verifyReading_atPhase T .wr6a hin, andThen_next]
  case wr6b => rw [writeWR6b, verifyReading_atPhase T .wr6b hin, andThen_next]
  case passed => rw [writeWR6d_eq, afterTest_success hok]

end Sys2Proof.Machine
end

section
/-! SUPPORT. The session commands as replays of their events with the registers they complete by, and the two outcomes
of SETCHIP (spec/45_session_commands.md R230 to R238). -/

namespace Sys2Proof.Trace

open Machine

/-- Only OPEN's shift/latch sequence waits (R231). -/
theorem duration_openCmd (c : Cfg) : duration (openCmd c) = 32 * c.tShift.toNat + 2 * c.tLatch.toNat := by
  rw [openCmd, duration_append, duration_shiftLatch]
  exact Nat.zero_add _

end Sys2Proof.Trace

namespace Sys2Proof.Machine

variable {s : State}

/-! ### The phase a command completes in does not matter (R33) -/

theorem openDone_atPhase (p : Phase) (s : State) : openDone (atPhase p s) = openDone s := rfl

theorem closeDone_atPhase (p : Phase) (s : State) : closeDone (atPhase p s) = closeDone s := rfl

/-! ### The commands in every state -/

/-- OPEN has no pre-check and no branch (R230, R231). -/
theorem exec_open_eq_replay (s : State) :
    exec .openCmd s = .next (openDone (setCurAddr 0 (replay (Trace.openCmd s.cfg) s))) := by
  have hrun : exec .openCmd s = .next (openDone (openOP4 (openOP3 (openOP2 (openOP1 s))))) := rfl
  rw [hrun, openPhases_eq_replay, openDone_atPhase]

/-- CLOSE has no pre-check and no branch (R233, R234). -/
theorem exec_close_eq_replay (s : State) : exec .closeCmd s = .next (closeDone (replay [.dir .input] s)) := by
  have hrun : exec .closeCmd s = .next (closeDone (replay [.dir .input] (atPhase .cl1 s))) := rfl
  rw [hrun, replay_atPhase, closeDone_atPhase]

/-- SETCHIP refuses a staged capacity of 0 (R238). -/
theorem exec_setchip_of_capacity_eq_zero (h : s.blk.stg.capacity = 0) : exec .setchip s = .next (raise .badChip s) :=
  if_pos h

/-- SETCHIP looks at no other staged field (R236). -/
theorem exec_setchip_of_capacity_ne_zero (h : s.blk.stg.capacity ≠ 0) : exec .setchip s = setchipFromSC1 s :=
  if_neg h

end Sys2Proof.Machine
end

section
/-! The obligations on the session commands (spec/45_session_commands.md R230 to R238). -/

namespace Sys2Proof.Machine

/-- Settles O32: OPEN replays its events, which write seven registers of the block, and then caches address 0 and
completes. -/
theorem openInitialises : Obligations.OpenInitialises := by
  refine ⟨by decide, Trace.duration_openCmd, fun s => ?_⟩
  rw [exec_open_eq_replay, replay_eq_update, absorbAll_openCmd]
  rfl

/-- Settles O33: no register that OPEN writes depends on the state it starts from, and each run of its events shifts 0
into the external latch. -/
theorem openTwiceSameEnd : Obligations.OpenTwiceSameEnd := by
  intro s
  obtain ⟨-, -, hopen⟩ := openInitialises
  exact ⟨_, _, hopen s, hopen _, rfl, replay_openCmd_latch s, replay_openCmd_latch _, rfl, rfl,
    rfl, rfl, rfl, rfl, rfl, rfl, rfl, rfl, rfl⟩

/-- Settles O34: CLOSE replays its one event, which writes the direction, and completes. -/
theorem closeReleasesBus : Obligations.CloseReleasesBus := by
  refine ⟨by decide, fun s => ?_⟩
  rw [exec_close_eq_replay, replay_eq_update]
  rfl

/-- Settles O35: SETCHIP branches on the staged capacity alone; either branch writes its registers and emits nothing. -/
theorem setchipBindsOrRefuses : Obligations.SetchipBindsOrRefuses := by
  refine ⟨by decide, fun s => ⟨fun hcap => ?binds, fun hcap => ?refuses, rfl⟩⟩
  case binds =>
    rw [exec_setchip_of_capacity_ne_zero hcap]
    rfl
  case refuses =>
    rw [exec_setchip_of_capacity_eq_zero hcap]
    rfl

end Sys2Proof.Machine
end

section
/-! SUPPORT. The two lifecycle facts, `S.open` and the binding of `S.chip` (spec/60_exceptions.md R268): no event writes
them, and what READ and WRITE do in each mode. -/

namespace Sys2Proof.Machine

/-! ### No event opens or closes a session, and none binds a chip -/

@[simp] theorem absorb_isOpen (b : Block) (e : Event) : (b.absorb e).isOpen = b.isOpen := by
  cases e with
  | pin p l => cases p <;> rfl
  | _ => rfl

@[simp] theorem absorb_chip (b : Block) (e : Event) : (b.absorb e).chip = b.chip := by
  cases e with
  | pin p l => cases p <;> rfl
  | _ => rfl

@[simp] theorem absorbAll_isOpen (es : List Event) (b : Block) : (absorbAll es b).isOpen = b.isOpen := by
  induction es generalizing b with
  | nil => rfl
  | cons e es ih => rw [absorbAll_cons, ih, absorb_isOpen]

@[simp] theorem absorbAll_chip (es : List Event) (b : Block) : (absorbAll es b).chip = b.chip := by
  induction es generalizing b with
  | nil => rfl
  | cons e es ih => rw [absorbAll_cons, ih, absorb_chip]

/-! ### READ and WRITE in a session with a chip bound -/

/-- The cycle ran from `s` to `t`: the mode stands, events were emitted, and WRITE is over or rests in its verify loop
(notes/assumptions/3.md). -/
structure CycleRan (s t : State) : Prop where
  isOpen : t.blk.isOpen = s.blk.isOpen
  chip   : t.blk.chip = s.blk.chip
  ends   : t.blk.code = .ok ∨ t.blk.code = .writeFailed ∨ t.blk.seq = .wr6a
  events : s.trace.length < t.trace.length

theorem CycleRan.trace_ne {s t : State} (h : CycleRan s t) : t.trace ≠ s.trace := fun heq =>
  h.events.ne' (congrArg List.length heq)

/-- READ is one replay, which ends with `OK` (R181, R183). -/
theorem exec_read_ran {s : State} {T : ChipDesc} (ho : s.blk.isOpen = true) (hT : s.blk.chip = some T) :
    ∃ t, exec .read s = .next t ∧ CycleRan s t :=
  ⟨_, readRunsItsCycle s T ho hT, rfl, rfl, .inl rfl, by simp⟩

/-- A verify iteration ends in success, in the spent budget, or where it began (R208, R209). -/
theorem writeFromWR6a_ran (T : ChipDesc) {s : State} (hd : s.blk.dir = .input) :
    ∃ t, writeFromWR6a T s = .next t ∧ CycleRan s t := by
  refine ⟨_, writeFromWR6a_eq T s hd, ?isOpen, ?chip, ?ends, ?events⟩
  case isOpen => simp only [afterTest_keeps]
  case chip => simp only [afterTest_keeps]
  case ends =>
    obtain ⟨-, hok, -⟩ | ⟨-, hfailed, -⟩ | hagain := afterTest_cases s.cfg _
    · exact .inl hok
    · exact .inr (.inl hfailed)
    · exact .inr (.inr hagain)
  case events => simp [Trace.iteration, Trace.reading, Trace.setPin]

/-- WR1 to WR5 only replay events, so the first iteration decides how WRITE ends (R210). -/
theorem writeFromWR1_ran (T : ChipDesc) (s : State) : ∃ t, writeFromWR1 T s = .next t ∧ CycleRan s t := by
  have hdir : (writeWR5 (writeWR4 T (writeWR3 (writeWR2 (writeWR1 T s))))).blk.dir = .input := rfl
  obtain ⟨t, hrun, hran⟩ := writeFromWR6a_ran T hdir
  obtain ⟨hopen, hchip, hends, hevents⟩ := hran
  refine ⟨t, hrun, hopen.trans ?_, hchip.trans ?_, hends, hevents.trans_le' ?_⟩ <;>
    simp [writeLoopEntry_eq_replay]

/-! ### READ and WRITE in every mode -/

/-- The table of R268 for READ and WRITE. -/
structure AccessByMode (s t : State) : Prop where
  isOpen  : t.blk.isOpen = s.blk.isOpen
  chip    : t.blk.chip = s.blk.chip
  closed  : s.blk.isOpen = false → t.blk.code = .notOpen
  unbound : s.blk.isOpen = true → s.blk.chip = none → t.blk.code = .noChip
  runs    : s.blk.isOpen = true → s.blk.chip.isSome = true → CycleRan s t

/-- The codes of R268's table. -/
theorem AccessByMode.table {s t : State} (h : AccessByMode s t) :
    (s.blk.isOpen = false → t.blk.code = .notOpen) ∧
    (s.blk.isOpen = true → s.blk.chip = none → t.blk.code = .noChip) ∧
    (s.blk.isOpen = true → s.blk.chip.isSome = true →
      t.blk.code = .ok ∨ t.blk.code = .writeFailed ∨ t.blk.seq = .wr6a) ∧
    (s.blk.isOpen = true → s.blk.chip.isSome = true → t.trace ≠ s.trace) :=
  ⟨h.closed, h.unbound, fun ho hT => (h.runs ho hT).ends, fun ho hT => (h.runs ho hT).trace_ne⟩

/-- The pre-checks refuse in three of the modes and run the cycle in the fourth (R180, R200). -/
theorem withSession_byMode {s : State} {k : ChipDesc → Out State}
    (hk : ∀ T, s.blk.isOpen = true → s.blk.chip = some T → ∃ t, k T = .next t ∧ CycleRan s t) :
    ∃ t, withSession s k = .next t ∧ AccessByMode s t := by
  obtain ⟨ho, T, hT⟩ | ⟨ho, hn⟩ | hc := session_cases s.blk
  · obtain ⟨t, hrun, hran⟩ := hk T ho hT
    exact ⟨t, (withSession_bound ho hT k).trans hrun, hran.isOpen, hran.chip, by simp [ho], by simp [hT],
      fun _ _ => hran⟩
  · exact ⟨_, withSession_noChip ho hn k, rfl, rfl, by simp [ho], fun _ _ => rfl, by simp [hn]⟩
  · exact ⟨_, withSession_notOpen hc k, rfl, rfl, fun _ => rfl, by simp [hc], by simp [hc]⟩

theorem exec_read_byMode (s : State) : ∃ t, exec .read s = .next t ∧ AccessByMode s t :=
  withSession_byMode fun _ ho hT => by
    obtain ⟨t, hrun, hran⟩ := exec_read_ran ho hT
    exact ⟨t, (exec_read_of_session ho hT).symm.trans hrun, hran⟩

theorem exec_write_byMode (v : Byte) (s : State) : ∃ t, exec (.write v) s = .next t ∧ AccessByMode s t :=
  withSession_byMode fun T _ _ => by
    obtain ⟨t, hrun, hopen, hchip, hends, hevents⟩ := writeFromWR1_ran T (latchValue v (latchAddress T s))
    exact ⟨t, hrun, hopen, hchip, hends, hevents⟩

end Sys2Proof.Machine
end

section
/-! The obligations on the errors and the lifecycle modes (spec/60_exceptions.md R262, R268). -/

namespace Sys2Proof.Machine

/-- Settles O38: OPEN, CLOSE and SETCHIP are the updates of O32, O34 and O35; READ and WRITE go by the table of R268. -/
theorem lifecycleModes : Obligations.LifecycleModes := by
  intro i s t h
  have haccess (ht : ∃ u, exec i s = .next u ∧ AccessByMode s u) : AccessByMode s t := by
    obtain ⟨u, hu, hmode⟩ := ht
    cases hu.symm.trans h
    exact hmode
  cases i with
  | openCmd =>
    obtain ⟨-, -, hopen⟩ := openInitialises
    cases (hopen s).symm.trans h
    exact ⟨rfl, rfl, by simp, fun _ => rfl⟩
  | closeCmd =>
    obtain ⟨-, hclose⟩ := closeReleasesBus
    cases (hclose s).symm.trans h
    exact ⟨rfl, rfl, by simp, fun _ => rfl⟩
  | setchip =>
    obtain ⟨-, hset⟩ := setchipBindsOrRefuses
    obtain ⟨hbinds, hrefuses, -⟩ := hset s
    by_cases hcap : s.blk.stg.capacity = 0
    · cases (hrefuses hcap).symm.trans h
      exact ⟨rfl, (if_pos hcap).symm, by simp, by simp⟩
    · cases (hbinds hcap).symm.trans h
      exact ⟨rfl, (if_neg hcap).symm, by simp, by simp⟩
  | read =>
    have hmode := haccess (exec_read_byMode s)
    exact ⟨hmode.isOpen, hmode.chip, fun _ => hmode.table, by simp⟩
  | write v =>
    have hmode := haccess (exec_write_byMode v s)
    exact ⟨hmode.isOpen, hmode.chip, fun _ => hmode.table, by simp⟩

/-- Settles O37: each pre-check is taken by `raise`, which in an idle block writes the code and RESULT alone. -/
theorem preCheckErrorsArePrecise : Obligations.PreCheckErrorsArePrecise := by
  intro s hidle refused
  have hraise : ∀ e, .next (raise e s) = refused e := fun e => congrArg _ (raise_of_idle e hidle)
  refine ⟨fun v hc => ?notOpen, fun v ho hn => ?noChip, fun hcap => ?badChip, fun w e hw => ?badCmd⟩
  case notOpen => exact ⟨(withSession_notOpen hc _).trans (hraise _), (withSession_notOpen hc _).trans (hraise _)⟩
  case noChip => exact ⟨(withSession_noChip ho hn _).trans (hraise _), (withSession_noChip ho hn _).trans (hraise _)⟩
  case badChip => exact (exec_setchip_of_capacity_eq_zero hcap).trans (hraise _)
  case badCmd => exact (hostWrite_cmd_of_decode_error s ⟨e, hw⟩).trans (hraise _)

end Sys2Proof.Machine
end

section
/-! The obligations on the command word, the host's lines and the two drivers (spec/30_encoding.md R92, R95, R97, R98;
spec/41_address_latch.md, the idempotence property; spec/42_data_bus.md, the round trip). -/

namespace Sys2Proof.Machine

/-- Settles O3: the decoder and the encoder undo each other. -/
theorem decodeIffEncode : Obligations.DecodeIffEncode := fun _ i =>
  ⟨encode_of_decode_eq_ok, fun h => h ▸ decode_encode i⟩

/-- Settles O1: eleven closed words. -/
theorem tableWordsDecode : Obligations.TableWordsDecode := by
  unfold Obligations.TableWordsDecode
  decide

/-- The word of WRITE with the operand of a line (R97). -/
theorem encode_write_ofNat {v : Nat} (h : v < 256) :
    encode (.write (BitVec.ofNat 8 v)) = BitVec.ofNat 32 (v * 256 + 5) := by
  apply BitVec.eq_of_toNat_eq
  rw [Laws.EncodeMatches.encode_write_toNat, BitVec.toNat_ofNat, BitVec.toNat_ofNat]
  omega

theorem cmdInput_write {v : Nat} (h : v < 256) :
    cmdInput (.write (BitVec.ofNat 8 v)) = .access (.write 0x00 (BitVec.ofNat 32 (v * 256 + 5))) := by
  rw [cmdInput, encode_write_ofNat h, regIndex]

/-- Staging a field writes the field itself (R98). -/
theorem wrInput_toNat (r : RegName) (w : Word) : wrInput r w.toNat = .access (.write (regIndex r) w) := by
  rw [wrInput, BitVec.ofNat_toNat, BitVec.setWidth_eq]

/-- ERASE erases the addresses in rising order (R98). -/
theorem expand_erase_succ (n : Nat) : expand (.erase (n + 1)) = expand (.erase n) ++ writeAtInputs n 0xFF := by
  simp [expand, List.range_succ]

/-- Settles O46: a register's accesses are at its index, a command's is its word, and the other lines are made of
these. -/
theorem pseudoInstructionsExpand : Obligations.PseudoInstructionsExpand := by
  refine ⟨fun p hp => ?register, by decide, by decide, by decide, by decide, fun v hv => ?write, fun a _ => ?readAt,
    fun a v _ hv => ?writeAt, rfl, fun n _ => ?erase, fun d => ?setchipWith, fun _ _ => List.flatMap_cons⟩
  case register =>
    have hindex : regIndex p.1 = p.2 := by
      revert p
      decide
    rw [← hindex]
    exact ⟨rfl, fun _ _ => rfl⟩
  case write => rw [expand, cmdInput_write hv]
  case readAt => rfl
  case writeAt =>
    rw [expand, writeAtInputs, cmdInput_write hv]
    rfl
  case erase =>
    rw [expand_erase_succ, writeAtInputs, cmdInput_write (v := 0xFF) (by decide)]
    rfl
  case setchipWith =>
    simp only [expand, stageInputs, List.map, wrInput_toNat]
    rfl

/-- Settles O12: the keeper takes the byte as it is driven; neither the switch to input nor the sample changes it. -/
theorem busKeeperRoundTrip : Obligations.BusKeeperRoundTrip := by
  intro v w s hkeeper
  set t := setDirectionInput (writeByte v (setDirectionOutput s)) with ht
  have hdevice : t.env.device = .keeper v := by
    simp [ht, setDirectionInput, writeByte, setDirectionOutput, Env.observe, Device.driveLines, hkeeper]
  have hsample : sample t = v := by
    rw [sample, Env.answer, hdevice]
  have hread : readByte t = .next (v, emit (.smp v) t) := hsample ▸ readByte_input rfl
  exact ⟨_, hread, by simp [ht, setDirectionInput, writeByte, setDirectionOutput], rfl, rfl⟩

/-- Settles O9: after the first call the cached address is `a`, so the policy alone decides the second. -/
theorem setAddressTwice : Obligations.SetAddressTwice := by
  intro outer a s t u
  obtain ⟨ht, -, -⟩ := setAddressSkipsOrLatches outer a s
  obtain ⟨hu, hskip, hlatch⟩ := setAddressSkipsOrLatches outer a t
  have hcfg : t.cfg = s.cfg := (Prolongs.setAddress outer a s).cfg
  rw [hcfg] at hskip hlatch
  refine ⟨ht, hu, fun hsame => (hskip hsame ht.symm).1, fun halways => ?_⟩
  obtain ⟨htrace, -, -⟩ := hlatch (.inl halways)
  exact ⟨_, htrace, Trace.writes_lat_shiftLatch s.cfg a true, Trace.writes_clk_shiftLatch s.cfg a true⟩

end Sys2Proof.Machine
end

section
/-! SUPPORT. WRITE in two parts: the state in which its verify loop begins, and what one verify iteration makes of a
state (spec/44_write_verify_cycle.md R201 to R210). `exec` of a WRITE is the first iteration from the loop's beginning, and a
step from WR6a is one iteration more. -/

namespace Sys2Proof.Machine

variable (T : ChipDesc) (v : Byte) (s : State)

/-! ### One iteration -/

/-- The byte the first reading of an iteration samples (R206). -/
def firstByte : Byte := sample (replay (Trace.setPin .oe false T.oe) s)

/-- The byte the second reading of an iteration samples (R206). -/
def secondByte : Byte := sample (replay (Trace.reading T (firstByte T s) ++ Trace.setPin .oe false T.oe) s)

/-- The events of an iteration from `s` (R206, R207). -/
def iterationEvents : List Event := Trace.iteration s.cfg T (firstByte T s) (secondByte T s)

/-- The registers that the test of an iteration from `s` looks at (R208). -/
def testedBlock : Block := { s.blk with oe := true, r1 := firstByte T s, r2 := secondByte T s }

/-- The state at the end of an iteration from `s` (R206 to R209). -/
def iterationEnd : State :=
  { s with
    blk := afterTest s.cfg (testedBlock T s)
    env := (replay (iterationEvents T s) s).env
    trace := s.trace ++ iterationEvents T s }

theorem writeFromWR6a_eq_iterationEnd {s : State} (h : s.blk.dir = .input) :
    writeFromWR6a T s = .next (iterationEnd T s) :=
  writeFromWR6a_eq T s h

@[simp] theorem iterationEnd_cfg : (iterationEnd T s).cfg = s.cfg := rfl
theorem iterationEnd_blk : (iterationEnd T s).blk = afterTest s.cfg (testedBlock T s) := rfl
@[simp] theorem iterationEnd_host : (iterationEnd T s).host = s.host := rfl
@[simp] theorem iterationEnd_replies : (iterationEnd T s).replies = s.replies := rfl
@[simp] theorem iterationEnd_env : (iterationEnd T s).env = (replay (iterationEvents T s) s).env := rfl
@[simp] theorem iterationEnd_trace : (iterationEnd T s).trace = s.trace ++ iterationEvents T s := rfl

/-- The registers that an iteration leaves alone or at a fixed level. -/
theorem iterationEnd_keeps :
    (iterationEnd T s).blk.isOpen = s.blk.isOpen ∧ (iterationEnd T s).blk.chip = s.blk.chip ∧
    (iterationEnd T s).blk.stg = s.blk.stg ∧ (iterationEnd T s).blk.addrReg = s.blk.addrReg ∧
    (iterationEnd T s).blk.curAddr = s.blk.curAddr ∧ (iterationEnd T s).blk.dir = s.blk.dir ∧
    (iterationEnd T s).blk.clk = s.blk.clk ∧ (iterationEnd T s).blk.lat = s.blk.lat ∧
    (iterationEnd T s).blk.oe = true ∧ (iterationEnd T s).blk.we = s.blk.we ∧
    (iterationEnd T s).blk.driven = s.blk.driven ∧ (iterationEnd T s).blk.dout = s.blk.dout ∧
    (iterationEnd T s).blk.wval = s.blk.wval := by
  simp [iterationEnd_blk, testedBlock, afterTest_keeps]

/-- The phase an iteration starts in does not matter. -/
theorem iterationEnd_atPhase (p : Phase) : iterationEnd T (atPhase p s) = iterationEnd T s := by
  have hfirst : firstByte T (atPhase p s) = firstByte T s := by
    rw [firstByte, replay_atPhase, sample_atPhase, firstByte]
  have hsecond : secondByte T (atPhase p s) = secondByte T s := by
    rw [secondByte, replay_atPhase, sample_atPhase, hfirst, secondByte]
  have hblk : testedBlock T (atPhase p s) = { testedBlock T s with seq := p } := by
    rw [testedBlock, hfirst, hsecond]
    rfl
  have hevents : iterationEvents T (atPhase p s) = iterationEvents T s := by
    rw [iterationEvents, hfirst, hsecond]
    rfl
  rw [iterationEnd, hblk, afterTest_seq, hevents, replay_atPhase]
  rfl

/-! ### The beginning of the loop -/

/-- The events of WRITE before its verify loop (R201 to R205). -/
def writeSetupEvents : List Event := Trace.writeLead s.cfg T s.blk.curAddr (reduce s.blk.addrReg T.capacity) v

/-- The state in which the verify loop of WRITE begins (R201 to R205), at rest at WR6a. -/
def loopEntry : State :=
  let a := reduce s.blk.addrReg T.capacity
  let skip := Trace.skip s.cfg s.blk.curAddr a
  { s with
    blk := { s.blk with
      aEff := a, wval := v, dir := .input, oe := true, we := true, dout := v, curAddr := a
      clk := if skip then s.blk.clk else false
      dat := if skip then s.blk.dat else a.getLsbD 0
      lat := if skip then s.blk.lat else false
      iter := 0, seq := .wr6a }
    env := (replay (writeSetupEvents T v s) s).env
    trace := s.trace ++ writeSetupEvents T v s }

@[simp] theorem loopEntry_cfg : (loopEntry T v s).cfg = s.cfg := rfl
@[simp] theorem loopEntry_host : (loopEntry T v s).host = s.host := rfl
@[simp] theorem loopEntry_replies : (loopEntry T v s).replies = s.replies := rfl
@[simp] theorem loopEntry_env : (loopEntry T v s).env = (replay (writeSetupEvents T v s) s).env := rfl
@[simp] theorem loopEntry_trace : (loopEntry T v s).trace = s.trace ++ writeSetupEvents T v s := rfl

/-- The registers after the events of WR1 to WR5. -/
theorem absorbAll_writeLead (c : Cfg) (cur a : Addr16) (b : Block) :
    absorbAll (Trace.writeLead c T cur a v) b =
      { b with dir := .input
               oe := true
               we := true
               dout := v
               clk := if Trace.skip c cur a then b.clk else false
               dat := if Trace.skip c cur a then b.dat else a.getLsbD 0
               lat := if Trace.skip c cur a then b.lat else false } := by
  simp [Trace.writeLead, absorbAll_append, absorbAll_setAddress]

/-- Latching the operands moves no wire (R93). -/
theorem sameWires_latchOperands : SameWires (latchValue v (latchAddress T s)).blk s.blk :=
  ⟨rfl, rfl, rfl, rfl, rfl, rfl, rfl, rfl, rfl⟩

/-- WR1 to WR5 from the operands of WRITE lead to the loop's beginning (R201 to R205). -/
theorem writeWR5_eq_loopEntry :
    writeWR5 (writeWR4 T (writeWR3 (writeWR2 (writeWR1 T (latchValue v (latchAddress T s))))))
      = atPhase .wr5 (loopEntry T v s) := by
  set e := latchValue v (latchAddress T s)
  have hevents : Trace.writeLead e.cfg T e.blk.curAddr e.blk.aEff e.blk.wval = writeSetupEvents T v s := rfl
  have henv : (replay (writeSetupEvents T v s) e).env = (replay (writeSetupEvents T v s) s).env :=
    replay_env_congr _ (sameWires_latchOperands T v s) rfl
  refine (writeLoopEntry_eq_replay T e).trans ?_
  rw [hevents, replay_eq_update, henv, writeSetupEvents, absorbAll_writeLead]
  rfl

/-- The wires at the loop's beginning are those the events leave. -/
theorem loopEntry_sameWires :
    SameWires (loopEntry T v s).blk (replay (writeSetupEvents T v s) s).blk := by
  rw [replay_blk, writeSetupEvents, absorbAll_writeLead]
  exact ⟨rfl, rfl, rfl, rfl, rfl, rfl, rfl, rfl, rfl⟩

variable {T s}

/-- WRITE in a session with a chip bound is the first iteration of its loop (R200, R210). -/
theorem exec_write_of_session (ho : s.blk.isOpen = true) (hT : s.blk.chip = some T) (v : Byte) :
    exec (.write v) s = .next (iterationEnd T (loopEntry T v s)) := by
  have hcycle : exec (.write v) s = writeFromWR6a T
      (writeWR5 (writeWR4 T (writeWR3 (writeWR2 (writeWR1 T (latchValue v (latchAddress T s))))))) :=
    withSession_bound ho hT _
  rw [hcycle, writeWR5_eq_loopEntry, ← iterationEnd_atPhase T _ .wr5]
  exact writeFromWR6a_eq_iterationEnd T rfl

end Sys2Proof.Machine
end

section
/-! SUPPORT. A running verify loop: its steps are iterations (spec/44_write_verify_cycle.md R206 to R209). -/

namespace Sys2Proof.Machine

/-- `s` rests in the verify loop of a WRITE to the chip `T`, with no reset pending. -/
structure InLoop (T : ChipDesc) (s : State) : Prop where
  seq     : s.blk.seq = .wr6a
  chip    : s.blk.chip = some T
  dir     : s.blk.dir = .input
  noReset : ∀ n rest, s.host ≠ .reset n :: rest

variable {T : ChipDesc} {s : State}

/-- A step that is not taken in IDLE goes on with the command (R42). -/
theorem step_of_running (h : s.blk.seq ≠ .idle) : step s = continueCommand s := by
  unfold step
  split
  · contradiction
  · rfl

/-- From WR6a the command goes on with one iteration (R206). -/
theorem resume_of_wr6a (hseq : s.blk.seq = .wr6a) (hT : s.blk.chip = some T) (hdir : s.blk.dir = .input) :
    resume s = .next (iterationEnd T s) := by
  rw [resume, hseq]
  simp only [withBound, hT]
  exact writeFromWR6a_eq_iterationEnd T hdir

/-- From WR6a a step is one iteration, cut by a reset or not (R302). -/
theorem step_of_wr6a (hseq : s.blk.seq = .wr6a) (hT : s.blk.chip = some T) (hdir : s.blk.dir = .input) :
    step s = .next (cutByReset s (iterationEnd T s)) := by
  rw [step_of_running (by simp [hseq]), continueCommand, resume_of_wr6a hseq hT hdir, andThen_next]

namespace InLoop

theorem step (h : InLoop T s) : step s = .next (iterationEnd T s) := by
  rw [step_of_wr6a h.seq h.chip h.dir, cutByReset_none h.noReset]

theorem runs_succ (h : InLoop T s) (k : Nat) : runs (k + 1) s = runs k (iterationEnd T s) :=
  runs_succ_of_step h.step k

/-- A loop that has not ended goes on. -/
theorem again (h : InLoop T s) (hseq : (iterationEnd T s).blk.seq = .wr6a) : InLoop T (iterationEnd T s) := by
  obtain ⟨-, hchip, hdir, hhost⟩ := h
  exact ⟨hseq, by simp [iterationEnd_keeps, hchip], by simp [iterationEnd_keeps, hdir], hhost⟩

end InLoop

theorem loopEntry_inLoop (v : Byte) (hT : s.blk.chip = some T) (hhost : ∀ n rest, s.host ≠ .reset n :: rest) :
    InLoop T (loopEntry T v s) :=
  ⟨rfl, hT, rfl, hhost⟩

end Sys2Proof.Machine
end

section
/-! The obligations on the run of WRITE (spec/44_write_verify_cycle.md R200 to R210). -/

namespace Sys2Proof.Machine

/-- Settles O21: WRITE is the iteration from the loop's beginning, whose wires and environment are those the events of
WR1 to WR5 leave. -/
theorem writeRunsItsCycle : Obligations.WriteRunsItsCycle := by
  intro v s T ho hT a skip lead x y
  have hwires := loopEntry_sameWires T v s
  have hx : firstByte T (loopEntry T v s) = x :=
    (sample_replay_congr _ hwires rfl).trans (by rw [← replay_append]; rfl)
  have hy : secondByte T (loopEntry T v s) = y := by
    rw [secondByte, hx]
    exact (sample_replay_congr _ hwires rfl).trans (by rw [← replay_append, ← List.append_assoc]; rfl)
  have henv : (replay (Trace.iteration s.cfg T x y) (loopEntry T v s)).env
      = (replay (lead ++ Trace.iteration s.cfg T x y) s).env :=
    (replay_env_congr _ hwires rfl).trans (by rw [← replay_append]; rfl)
  rw [exec_write_of_session ho hT, iterationEnd, testedBlock, iterationEvents, hx, hy, loopEntry_cfg, henv,
    loopEntry_trace, List.append_assoc, ← afterTest_seq s.cfg _ s.blk.seq]
  rfl

/-- Settles O23: in the loop a step is one iteration. -/
theorem verifyIterationRuns : Obligations.VerifyIterationRuns :=
  fun _ _ hseq hT hdir hhost => InLoop.step ⟨hseq, hT, hdir, hhost⟩

end Sys2Proof.Machine
end

section
/-! SUPPORT. The two outcomes of the pre-checks (spec/60_exceptions.md R263), and READ as one state. -/

namespace Sys2Proof.Machine

variable (T : ChipDesc) (s : State)

/-- The byte READ samples (R181, R183). -/
def readByteSampled : Byte := sample (replay (Trace.readLead s.cfg T s.blk.curAddr (reduce s.blk.addrReg T.capacity)) s)

/-- The events of READ (R181). -/
def readEvents : List Event :=
  Trace.readLead s.cfg T s.blk.curAddr (reduce s.blk.addrReg T.capacity) ++ [.smp (readByteSampled T s)]

/-- The state in which READ ends in a session with the chip `T` bound (R181). -/
def readEnd : State :=
  let a := reduce s.blk.addrReg T.capacity
  let skip := Trace.skip s.cfg s.blk.curAddr a
  { s with
    blk := { s.blk with
      aEff := a, dir := .input, oe := false, curAddr := a
      clk := if skip then s.blk.clk else false
      dat := if skip then s.blk.dat else a.getLsbD 0
      lat := if skip then s.blk.lat else false
      result := zext9 (readByteSampled T s), code := .ok, seq := .idle }
    env := (replay (readEvents T s) s).env
    trace := s.trace ++ readEvents T s }

variable {T s}

theorem exec_read_eq_readEnd (ho : s.blk.isOpen = true) (hT : s.blk.chip = some T) :
    exec .read s = .next (readEnd T s) :=
  readRunsItsCycle s T ho hT

variable (s)

/-- The pre-checks let a command run in a session with a chip bound, and take an error in every other mode. -/
theorem withSession_cases (k : ChipDesc → Out State) :
    (∃ T, s.blk.isOpen = true ∧ s.blk.chip = some T ∧ withSession s k = k T) ∨
    ∃ e, e ≠ Code.ok ∧ (s.blk.isOpen = false ∨ s.blk.chip = none) ∧ withSession s k = .next (raise e s) := by
  obtain ⟨ho, T, hT⟩ | ⟨ho, hn⟩ | hc := session_cases s.blk
  · exact .inl ⟨T, ho, hT, withSession_bound ho hT k⟩
  · exact .inr ⟨.noChip, by decide, .inr hn, withSession_noChip ho hn k⟩
  · exact .inr ⟨.notOpen, by decide, .inl hc, withSession_notOpen hc k⟩

theorem exec_read_cases :
    (∃ T, s.blk.isOpen = true ∧ s.blk.chip = some T ∧ exec .read s = .next (readEnd T s)) ∨
    ∃ e, e ≠ Code.ok ∧ (s.blk.isOpen = false ∨ s.blk.chip = none) ∧ exec .read s = .next (raise e s) := by
  obtain ⟨T, ho, hT, -⟩ | hrefused := withSession_cases s fun T => readFromRD1 T (latchAddress T s)
  · exact .inl ⟨T, ho, hT, exec_read_eq_readEnd ho hT⟩
  · exact .inr hrefused

theorem exec_write_cases (v : Byte) :
    (∃ T, s.blk.isOpen = true ∧ s.blk.chip = some T ∧ exec (.write v) s = .next (iterationEnd T (loopEntry T v s))) ∨
    ∃ e, e ≠ Code.ok ∧ (s.blk.isOpen = false ∨ s.blk.chip = none) ∧ exec (.write v) s = .next (raise e s) := by
  obtain ⟨T, ho, hT, -⟩ | hrefused := withSession_cases s fun T => writeFromWR1 T (latchValue v (latchAddress T s))
  · exact .inl ⟨T, ho, hT, exec_write_of_session ho hT v⟩
  · exact .inr hrefused

end Sys2Proof.Machine
end

section
/-! SUPPORT. Durations and pin writes of the event lists of READ and WRITE (spec/43_read_cycle.md R181,
spec/44_write_verify_cycle.md R201 to R207). -/

namespace Sys2Proof.Trace

open Machine

variable (c : Cfg) (T : ChipDesc) (cur a : Addr16) (v x y : Byte) (l : Level)

theorem duration_readLead :
    duration (readLead c T cur a) = T.od.toNat + duration (setAddress c cur a) + T.oe.toNat := by
  simp [readLead, duration, duration_append, Nat.add_assoc]

@[simp] theorem duration_reading : duration (reading T x) = T.oe.toNat + T.od.toNat := by
  simp [reading, duration, duration_append]

theorem duration_iteration :
    duration (iteration c T x y) = 2 * (T.oe.toNat + T.od.toNat) + c.tSettle.toNat := by
  simp [iteration, duration_append]
  omega

theorem duration_writeLead :
    duration (writeLead c T cur a v)
      = T.od.toNat + duration (setAddress c cur a) + T.wp.toNat + T.wc.toNat := by
  simp [writeLead, duration, duration_append, Nat.add_assoc]

@[simp] theorem writes_we_readLead : writes .we l (readLead c T cur a) = 0 := by
  simp [readLead, writes_append]

@[simp] theorem writes_reading {p : Pin} (hp : p ≠ .oe) : writes p l (reading T x) = 0 := by
  simp [reading, writes_append, hp.symm]

@[simp] theorem writes_iteration {p : Pin} (hp : p ≠ .oe) : writes p l (iteration c T x y) = 0 := by
  simp [iteration, writes_append, hp]

/-- The write pulse of WR4 (R204). -/
theorem writes_we_writeLead : writes .we l (writeLead c T cur a v) = 1 := by
  cases l <;> simp [writeLead, writes_append]

@[simp] theorem samples_reading : samples (reading T x) = 1 := by
  simp [reading, samples_append, isSample]

/-- An iteration takes two samples (R206). -/
theorem samples_iteration : samples (iteration c T x y) = 2 := by
  simp [iteration, samples_append]

/-- WRITE takes no sample before its loop. -/
theorem samples_writeLead : samples (writeLead c T cur a v) = 0 := by
  simp [writeLead, samples_append, isSample]

end Sys2Proof.Trace
end

section
/-! The obligations on the least durations (spec/70_reset_and_hazards.md section 4). -/

namespace Sys2Proof.Machine

/-- Settles O16: the waits of the cycle, on the reference clock. -/
theorem readMinimumDuration : Obligations.ReadMinimumDuration := by
  intro s T ho hT
  refine ⟨_, exec_read_eq_readEnd ho hT, ?_⟩
  change (replay (readEvents T s) s).env.now = _
  rw [replay_now, readEvents, Trace.duration_append, Trace.duration_readLead, Trace.duration_setAddress,
    Trace.duration, Trace.duration]
  omega

/-- The reference time an iteration takes. -/
theorem iterationEnd_now (T : ChipDesc) (s : State) :
    (iterationEnd T s).env.now = s.env.now + (2 * (T.oe.toNat + T.od.toNat) + s.cfg.tSettle.toNat) := by
  rw [iterationEnd_env, replay_now, iterationEvents, Trace.duration_iteration]

/-- Settles O24: the waits of WR1 to WR5, then those of one iteration; a step of the loop waits for one more. -/
theorem writeMinimumDuration : Obligations.WriteMinimumDuration := by
  refine ⟨fun v s T ho hT => ⟨_, exec_write_of_session ho hT v, ?_⟩,
    fun s T hseq hT hdir hhost => ⟨_, InLoop.step ⟨hseq, hT, hdir, hhost⟩, iterationEnd_now T s⟩⟩
  rw [iterationEnd_now, loopEntry_env, replay_now, writeSetupEvents, Trace.duration_writeLead,
    Trace.duration_setAddress, loopEntry_cfg]
  omega

end Sys2Proof.Machine
end

section
/-! SUPPORT. What a device behind the bus answers to the readings of READ and WRITE: a script, and a reference chip that
shows a byte at the address the external latch holds (spec/20_memory.md R71 to R73). -/

namespace Sys2Proof.Machine

variable {s : State} {T : ChipDesc}

/-! ### A script -/

/-- Only a sample moves a script on. -/
theorem replay_script (es : List Event) {l : List Byte} (h : s.env.device = .script l) (hs : Trace.samples es = 0) :
    (replay es s).env.device = .script l := by
  induction es generalizing s with
  | nil => exact h
  | cons e es ih =>
    rw [Trace.samples_cons] at hs
    apply ih _ (by omega)
    cases e with
    | pin p l =>
      cases p <;> simp only [emit_env, Env.observe] <;> (try split) <;> simp [h, Device.commit]
    | ctlEn => exact h
    | dir d => cases d <;> simp [Env.observe, h, Device.driveLines]
    | drv x => simp only [emit_env, Env.observe]; split <;> simp [h, Device.driveLines]
    | smp x => simp [Trace.isSample] at hs
    | delay n => simp [Env.observe, h, Device.expire]

theorem firstByte_script {x : Byte} {l : List Byte} (h : s.env.device = .script (x :: l)) : firstByte T s = x := by
  have hdev := replay_script (Trace.setPin .oe false T.oe) h (Trace.samples_setPin _ _ _)
  rw [firstByte, sample, Env.answer, hdev]

/-- A reading takes one byte off a script (R206). -/
theorem replay_reading_script {x : Byte} {l : List Byte} (h : s.env.device = .script (x :: l)) :
    (replay (Trace.reading T x) s).env.device = .script l := by
  have hdev := replay_script (Trace.setPin .oe false T.oe) h (Trace.samples_setPin _ _ _)
  rw [Trace.reading, replay_append]
  apply replay_script _ _ (Trace.samples_setPin _ _ _)
  rw [replay_append, replay_cons, replay_nil, emit_env, Env.observe, hdev, Device.advance]

/-- The second reading of an iteration is the first of the state the first leaves. -/
theorem secondByte_eq (T : ChipDesc) (s : State) :
    secondByte T s = firstByte T (replay (Trace.reading T (firstByte T s)) s) := by
  rw [secondByte, replay_append]
  rfl

/-- An iteration takes two bytes off a script. -/
theorem iteration_script {x y : Byte} {l : List Byte} (h : s.env.device = .script (x :: y :: l)) :
    firstByte T s = x ∧ secondByte T s = y ∧ (iterationEnd T s).env.device = .script l := by
  have hx : firstByte T s = x := firstByte_script h
  have hdev : (replay (Trace.reading T x) s).env.device = .script (y :: l) := replay_reading_script h
  have hy : secondByte T s = y := by
    rw [secondByte_eq, hx, firstByte_script hdev]
  refine ⟨hx, hy, ?_⟩
  rw [iterationEnd_env, iterationEvents, hx, hy, Trace.iteration, replay_append, replay_append]
  exact replay_script _ (replay_reading_script hdev) (Trace.samples_wait _)

/-! ### A reference chip -/

/-- The chip `c` stands behind the bus and shows `w` at the address the external latch holds. -/
structure ShowsByte (c : RefChip) (w : Byte) (s : State) : Prop where
  device : s.env.device = .chip c
  shown  : Shows c s.env.now s.env.latch w

/-- A chip with no write under way shows what it holds (R71). -/
theorem ShowsByte.of_noShadows {c : RefChip} (hd : s.env.device = .chip c) (hs : c.shadows = []) :
    ShowsByte c (c.mem.read (c.index s.env.latch)) s :=
  ⟨hd, rfl, by simp [hs]⟩

variable {c : RefChip} {w : Byte}

/-- The byte stays shown until WE or LAT rises. -/
theorem ShowsByte.replay (h : ShowsByte c w s) {es : List Event} (hwe : Trace.writes .we true es = 0)
    (hlat : Trace.writes .lat true es = 0) : ∃ c', ShowsByte c' w (replay es s) ∧ SameChip c c' := by
  obtain ⟨c', hd, hshown, hsame⟩ := replay_shows es h.device h.shown hwe
  exact ⟨c', ⟨hd, by rwa [replay_latch_keep es s hlat]⟩, hsame⟩

/-- A sample with OE low, the pins driven and the bus input answers the byte. -/
theorem ShowsByte.sample (h : ShowsByte c w s) (hdriven : s.blk.driven = true) (hoe : s.blk.oe = false)
    (hdir : s.blk.dir = .input) : sample s = w := by
  rw [sample_chip h.device hdriven hoe hdir, h.shown.output]

theorem ShowsByte.firstByte (h : ShowsByte c w s) (hdriven : s.blk.driven = true) (hdir : s.blk.dir = .input) :
    firstByte T s = w := by
  obtain ⟨c', h', -⟩ := h.replay (es := Trace.setPin .oe false T.oe) (by simp) (by simp)
  exact h'.sample (by simpa using hdriven) (by simp) (by simpa using hdir)

/-- Both readings of an iteration answer the byte, and it stays shown. -/
theorem ShowsByte.iteration (h : ShowsByte c w s) (hdriven : s.blk.driven = true) (hdir : s.blk.dir = .input) :
    Machine.firstByte T s = w ∧ secondByte T s = w ∧ ∃ c', ShowsByte c' w (iterationEnd T s) ∧ SameChip c c' := by
  obtain ⟨c1, h1, -⟩ := h.replay (es := Trace.reading T (Machine.firstByte T s)) (by simp) (by simp)
  obtain ⟨c2, h2, hsame⟩ := h.replay (es := iterationEvents T s) (by simp [iterationEvents]) (by simp [iterationEvents])
  refine ⟨h.firstByte hdriven hdir, ?_, c2, ⟨h2.device, h2.shown⟩, hsame⟩
  rw [secondByte_eq]
  exact h1.firstByte (by simpa using hdriven) (by simpa using hdir)

theorem SameChip.refl (c : RefChip) : SameChip c c := ⟨rfl, rfl, rfl⟩

/-- The same chip has the same bytes. -/
theorem SameChip.frame {d : Device} {c' : RefChip} (h : SameChip c c') (hd : d = .chip c') :
    ∃ c', d = .chip c' ∧ c'.kind = c.kind ∧ c'.capacity = c.capacity ∧ ∀ k, c'.mem.read k = c.mem.read k :=
  ⟨c', hd, h.kind, h.capacity, fun k => by rw [h.mem]⟩

/-- WE rises in OPEN with the bus already input, so the rise stores nothing, and no later event raises it (R231). -/
theorem replay_openCmd_eq (cfg : Cfg) (s : State) :
    ∃ s' es, replay (Trace.openCmd cfg) s = replay es s' ∧ s'.env = s.env ∧ Trace.writes .we true es = 0 := by
  refine ⟨emit (.pin .we true) (emit (.dir .input) s),
    [.pin .oe true, .pin .lat false, .pin .clk false, .pin .dat false, .ctlEn] ++ Trace.shiftLatch cfg 0, ?_, ?_, by simp⟩
  · simp only [Trace.openCmd, List.cons_append, List.nil_append, replay_cons]
  · simp [Env.observe]

/-! ### The address on the external latch -/

/-- The control pins are driven at their idle levels and the external latch holds the cached address (R149). -/
structure LatchReady (s : State) : Prop where
  driven : s.blk.driven = true
  clk    : s.blk.clk = false
  lat    : s.blk.lat = false
  latch  : s.env.latch = s.blk.curAddr

theorem latchReady_of_inv (h : Inv s) (ho : s.blk.isOpen = true) : LatchReady s :=
  ⟨h.coherent.driven ho, h.rest.clk, h.rest.lat, h.coherent.latch ho⟩

/-- The state in which OPEN ends (R231). -/
def openEnd (s : State) : State := openDone (setCurAddr 0 (replay (Trace.openCmd s.cfg) s))

/-- OPEN leaves the latch ready in every state (R148, R231). -/
theorem latchReady_openEnd (s : State) : LatchReady (openEnd s) := by
  constructor <;> simp [openEnd, openDone, absorbAll_openCmd, replay_openCmd_latch]

/-- Events that leave the latch and its pins alone, then `SetAddress(a)`: the external latch holds `a` (R149). -/
theorem LatchReady.replay_setAddress (h : LatchReady s) {es : List Event} (a : Addr16)
    (hlat : Trace.writes .lat true es = 0) (hpins : ∀ b : Block, (absorbAll es b).driven = b.driven ∧
      (absorbAll es b).clk = b.clk ∧ (absorbAll es b).lat = b.lat) :
    (replay (es ++ Trace.setAddress s.cfg s.blk.curAddr a) s).env.latch = a := by
  obtain ⟨hdriven, hclk, hlatpin⟩ := hpins s.blk
  rw [replay_append]
  apply replay_setAddress_latch
  case hd => rw [replay_blk, hdriven, h.driven]
  case hc => rw [replay_blk, hclk, h.clk]
  case hl => rw [replay_blk, hlatpin, h.lat]
  case hcur => rw [replay_latch_keep es s hlat, h.latch]

/-- READ against a chip with no write under way answers the byte held at the reduced address (R71, R183). -/
theorem readByteSampled_of_chip (h : LatchReady s) (hd : s.env.device = .chip c) (hs : c.shadows = []) :
    readByteSampled T s = c.mem.read (c.index (reduce s.blk.addrReg T.capacity)) := by
  set a := reduce s.blk.addrReg T.capacity
  set setup := Trace.readSetup s.cfg T s.blk.curAddr a with hsetup
  have hlatch : (replay setup s).env.latch = a :=
    h.replay_setAddress (es := .dir .input :: Trace.setPin .oe true T.od) a (by simp) (fun b => by simp)
  obtain ⟨c1, hd1, hs1, hsame⟩ := replay_noShadows setup hd hs (by simp [hsetup, Trace.readSetup, Trace.writes_append])
  have hshows := ShowsByte.of_noShadows hd1 hs1
  obtain ⟨c2, hshows2, -⟩ := hshows.replay (es := Trace.setPin .oe false T.oe) (by simp) (by simp)
  rw [hlatch, RefChip.index, hsame.mem, hsame.capacity, ← replay_append, hsetup, ← Trace.readLead_eq] at hshows2
  apply hshows2.sample
  · rw [replay_blk]
    exact absorbAll_driven _ _ h.driven
  · rw [replay_blk, absorbAll_readLead]
  · rw [replay_blk, absorbAll_readLead]

end Sys2Proof.Machine
end

section
/-! The obligations on READ against a reference chip and on its frame (spec/43_read_cycle.md). -/

namespace Sys2Proof.Machine

/-- READ in a session over a ready latch, against a chip with no write under way. -/
theorem exec_read_of_chip {s : State} {T : ChipDesc} {c : RefChip} (ho : s.blk.isOpen = true)
    (hT : s.blk.chip = some T) (h : LatchReady s) (hd : s.env.device = .chip c) (hs : c.shadows = []) :
    ∃ t, exec .read s = .next t ∧ t.blk.code = .ok ∧
      t.blk.result = zext9 (c.mem.read (c.index (reduce s.blk.addrReg T.capacity))) :=
  ⟨_, exec_read_eq_readEnd ho hT, rfl, congrArg zext9 (readByteSampled_of_chip h hd hs)⟩

/-- Settles O18: in a session of the invariant the latch is ready. -/
theorem readReturnsChipByte : Obligations.ReadReturnsChipByte :=
  fun _ _ _ hinv ho hT hd hs => exec_read_of_chip ho hT (latchReady_of_inv hinv ho) hd hs

/-- Settles O19: OPEN leaves the latch ready in every state, and address 0 is reduced to 0 whatever the capacity. -/
theorem readAfterOpenReturnsByteZero : Obligations.ReadAfterOpenReturnsByteZero := by
  intro s T c hT haddr hd hs
  obtain ⟨s', es, hevents, henv, hwe⟩ := replay_openCmd_eq s.cfg s
  obtain ⟨c', hd', hs', hsame⟩ := replay_noShadows (s := s') es (henv ▸ hd) hs hwe
  set t := openEnd s
  have hchip : t.blk.chip = some T := by simp [t, openEnd, openDone, hT]
  have haddr' : t.blk.addrReg = 0 := by simp [t, openEnd, openDone, absorbAll_openCmd, haddr]
  have hdevice : t.env.device = .chip c' := by simp [t, openEnd, openDone, hevents, hd']
  obtain ⟨u, hread, hcode, hresult⟩ := exec_read_of_chip (s := t) rfl hchip (latchReady_openEnd s) hdevice hs'
  refine ⟨t, u, exec_open_eq_replay s, hread, hcode, ?_⟩
  rw [hresult, hsame.mem, haddr']
  simp [RefChip.index, reduce]

/-- Settles O20: READ's registers are those of its cycle, or those of an error, and no event of it raises WE. -/
theorem readFrame : Obligations.ReadFrame := by
  intro s t h
  obtain ⟨T, -, -, hrun⟩ | ⟨e, -, -, hrun⟩ := exec_read_cases s
  · cases hrun.symm.trans h
    refine ⟨rfl, rfl, rfl, rfl, rfl, rfl, rfl, rfl, rfl, rfl, rfl, rfl, rfl, rfl, fun c hd => ?_⟩
    obtain ⟨c', hd', hsame⟩ := replay_sameChip (readEvents T s) hd (by simp [readEvents, Trace.writes_append])
    exact hsame.frame hd'
  · cases hrun.symm.trans h
    exact ⟨rfl, rfl, rfl, rfl, rfl, rfl, rfl, rfl, rfl, rfl, rfl, rfl, rfl, rfl,
      fun c hd => (SameChip.refl c).frame hd⟩

end Sys2Proof.Machine
end

section
/-! SUPPORT. The external latch over WRITE: it holds the reduced address when WE rises, and so when the verify loop
begins (spec/44_write_verify_cycle.md R202, R204, spec/41_address_latch.md R149). -/

namespace Sys2Proof.Trace

open Machine

variable (c : Cfg) (T : ChipDesc) (cur a : Addr16) (v : Byte)

/-- The events of WRITE before the rise of WE (R201 to R204). -/
def pulseSetup : List Event :=
  setPin .oe true T.od ++ setAddress c cur a ++ ([.dir .output, .drv v] ++ setPin .we false T.wp)

/-- The rise of WE ends the pulse; its hold and the switch to input follow (R204, R205). -/
theorem writeLead_eq :
    writeLead c T cur a v = pulseSetup c T cur a v ++ (.pin .we true :: (wait T.wc ++ [.dir .input])) := by
  simp [writeLead, pulseSetup, setPin]

@[simp] theorem writes_we_pulseSetup : writes .we true (pulseSetup c T cur a v) = 0 := by
  simp [pulseSetup, writes_append]

end Sys2Proof.Trace

namespace Sys2Proof.Machine

variable {T : ChipDesc} {s : State} (v : Byte)

/-- The state when WE rises. -/
def atPulse (T : ChipDesc) (v : Byte) (s : State) : State :=
  replay (Trace.pulseSetup s.cfg T s.blk.curAddr (reduce s.blk.addrReg T.capacity) v) s

/-- When WE rises the external latch holds the reduced address (R204, R149). -/
theorem atPulse_latch (h : LatchReady s) : (atPulse T v s).env.latch = reduce s.blk.addrReg T.capacity := by
  rw [atPulse, Trace.pulseSetup, replay_append, replay_latch_keep _ _ (by simp)]
  exact h.replay_setAddress _ (by simp) (fun b => by simp)

/-- The rise of WE and what follows it leave the external latch alone. -/
theorem loopEntry_latch (h : LatchReady s) : (loopEntry T v s).env.latch = reduce s.blk.addrReg T.capacity := by
  rw [loopEntry_env, writeSetupEvents, Trace.writeLead_eq, replay_append,
    replay_latch_keep _ _ (by simp [Trace.writes_append])]
  exact atPulse_latch v h

end Sys2Proof.Machine
end

section
/-! SUPPORT. How a verify loop runs on (spec/44_write_verify_cycle.md R208, R209): the end of a loop under BOUNDED, and a
loop against a chip that shows another byte. -/

namespace Sys2Proof.Machine

variable {s : State} {T : ChipDesc}

/-- The success test of an iteration from `s` (R208). -/
def Passes (T : ChipDesc) (s : State) : Prop := firstByte T s = secondByte T s ∧ firstByte T s = s.blk.wval

theorem iterationEnd_passed (h : Passes T s) :
    (iterationEnd T s).blk.seq = .idle ∧ (iterationEnd T s).blk.result = zext9 s.blk.wval ∧
    (iterationEnd T s).blk.code = .ok := by
  rw [iterationEnd_blk, afterTest_success (b := testedBlock T s) h]
  exact ⟨rfl, congrArg zext9 h.2, rfl⟩

theorem iterationEnd_unbounded (h : ¬ Passes T s) (hp : s.cfg.verifyPolicy = .unbounded) :
    (iterationEnd T s).blk.seq = .wr6a ∧ (iterationEnd T s).blk.result = s.blk.result ∧
    (iterationEnd T s).blk.code = s.blk.code := by
  rw [iterationEnd_blk, afterTest_unbounded (b := testedBlock T s) h hp]
  exact ⟨rfl, rfl, rfl⟩

theorem iterationEnd_spent (h : ¬ Passes T s) (hp : s.cfg.verifyPolicy = .bounded)
    (hcap : s.blk.iter + 1 = s.cfg.retryCap) :
    (iterationEnd T s).blk.seq = .idle ∧ (iterationEnd T s).blk.result = 0x100 ∧
    (iterationEnd T s).blk.code = .writeFailed := by
  rw [iterationEnd_blk, afterTest_spent (b := testedBlock T s) h hp hcap]
  exact ⟨rfl, rfl, rfl⟩

theorem iterationEnd_again (h : ¬ Passes T s) (hp : s.cfg.verifyPolicy = .bounded)
    (hcap : s.blk.iter + 1 ≠ s.cfg.retryCap) :
    (iterationEnd T s).blk.seq = .wr6a ∧ (iterationEnd T s).blk.iter = s.blk.iter + 1 := by
  rw [iterationEnd_blk, afterTest_again (b := testedBlock T s) h hp hcap]
  exact ⟨rfl, rfl⟩

/-- `m` more iterations may follow the next one before the budget is spent (R209). -/
structure Budget (m : Nat) (s : State) : Prop where
  bounded : s.cfg.verifyPolicy = .bounded
  left    : s.blk.iter.toNat + m + 1 = s.cfg.retryCap.toNat

/-- The count does not wrap before it reaches the cap (R209, R270). -/
theorem Budget.iter_succ_toNat {m : Nat} (h : Budget m s) : (s.blk.iter + 1).toNat = s.blk.iter.toNat + 1 := by
  have hlt := s.cfg.retryCap.isLt
  have hleft := h.left
  rw [BitVec.toNat_add]
  exact Nat.mod_eq_of_lt (by simp; omega)

theorem Budget.spent_iff {m : Nat} (h : Budget m s) : s.blk.iter + 1 = s.cfg.retryCap ↔ m = 0 := by
  have hleft := h.left
  rw [← BitVec.toNat_inj, h.iter_succ_toNat]
  omega

/-- An iteration that goes on takes one off the budget. -/
theorem Budget.again {m : Nat} (h : Budget (m + 1) s) (hiter : (iterationEnd T s).blk.iter = s.blk.iter + 1) :
    Budget m (iterationEnd T s) := by
  have hleft := h.left
  refine ⟨h.bounded, ?_⟩
  rw [hiter, h.iter_succ_toNat, iterationEnd_cfg]
  omega

/-! ### The end of a loop under BOUNDED -/

/-- The WRITE in whose loop `s` was is over, with its byte or with the sentinel (R211). -/
structure WriteOver (s u : State) : Prop where
  seq    : u.blk.seq = .idle
  host   : u.host = s.host
  dir    : u.blk.dir = s.blk.dir
  oe     : u.blk.oe = true
  we     : u.blk.we = s.blk.we
  dout   : u.blk.dout = s.blk.dout
  result : (u.blk.result = zext9 s.blk.wval ∧ u.blk.code = .ok) ∨ (u.blk.result = 0x100 ∧ u.blk.code = .writeFailed)

/-- An iteration that ends the command. -/
theorem writeOver_of_idle (hseq : (iterationEnd T s).blk.seq = .idle)
    (hresult : ((iterationEnd T s).blk.result = zext9 s.blk.wval ∧ (iterationEnd T s).blk.code = .ok) ∨
      ((iterationEnd T s).blk.result = 0x100 ∧ (iterationEnd T s).blk.code = .writeFailed)) :
    WriteOver s (iterationEnd T s) := by
  obtain ⟨-, -, -, -, -, hdir, -, -, hoe, hwe, -, hdout, -⟩ := iterationEnd_keeps T s
  exact ⟨hseq, rfl, hdir, hoe, hwe, hdout, hresult⟩

/-- What ends after an iteration has ended the command that was running before it. -/
theorem WriteOver.of_again {u : State} (h : WriteOver (iterationEnd T s) u) : WriteOver s u := by
  obtain ⟨-, -, -, -, -, hdir, -, -, -, hwe, -, hdout, hwval⟩ := iterationEnd_keeps T s
  exact ⟨h.seq, h.host, h.dir.trans hdir, h.oe, h.we.trans hwe, h.dout.trans hdout, hwval ▸ h.result⟩

/-- Under BOUNDED a loop ends while its budget lasts, whatever the environment answers (R209, R312). -/
theorem InLoop.ends {m : Nat} (h : InLoop T s) (hb : Budget m s) :
    ∃ k u, k ≤ m ∧ runs (k + 1) s = .next u ∧ WriteOver s u := by
  induction m generalizing s with
  | zero =>
    refine ⟨0, iterationEnd T s, le_rfl, h.runs_succ 0, ?_⟩
    by_cases hpass : Passes T s
    · obtain ⟨hseq, hresult, hcode⟩ := iterationEnd_passed hpass
      exact writeOver_of_idle hseq (.inl ⟨hresult, hcode⟩)
    · obtain ⟨hseq, hresult, hcode⟩ := iterationEnd_spent hpass hb.bounded (hb.spent_iff.mpr rfl)
      exact writeOver_of_idle hseq (.inr ⟨hresult, hcode⟩)
  | succ m ih =>
    by_cases hpass : Passes T s
    · obtain ⟨hseq, hresult, hcode⟩ := iterationEnd_passed hpass
      exact ⟨0, _, Nat.zero_le _, h.runs_succ 0, writeOver_of_idle hseq (.inl ⟨hresult, hcode⟩)⟩
    · obtain ⟨hseq, hiter⟩ := iterationEnd_again hpass hb.bounded (hb.spent_iff.not.mpr (by omega))
      obtain ⟨k, u, hk, hrun, hover⟩ := ih (h.again hseq) (hb.again hiter)
      exact ⟨k + 1, u, Nat.succ_le_succ hk, (h.runs_succ (k + 1)).trans hrun, hover.of_again⟩

/-! ### A loop against a chip that shows another byte -/

/-- On driven pins a chip shows another byte than the one the loop waits for. -/
structure Rejected (s : State) : Prop where
  driven : s.blk.driven = true
  shows  : ∃ c w, ShowsByte c w s ∧ w ≠ s.blk.wval

theorem Rejected.not_passes (h : Rejected s) (hdir : s.blk.dir = .input) : ¬ Passes T s := by
  obtain ⟨c, w, hshows, hne⟩ := h.shows
  rintro ⟨-, heq⟩
  exact hne ((hshows.firstByte h.driven hdir).symm.trans heq)

theorem Rejected.again (h : Rejected s) (hdir : s.blk.dir = .input) : Rejected (iterationEnd T s) := by
  obtain ⟨c, w, hshows, hne⟩ := h.shows
  obtain ⟨-, -, c', hshows', -⟩ := hshows.iteration (T := T) h.driven hdir
  obtain ⟨-, -, -, -, -, -, -, -, -, -, hdriven, -, hwval⟩ := iterationEnd_keeps T s
  exact ⟨hdriven.trans h.driven, c', w, hshows', hwval ▸ hne⟩

/-- Under UNBOUNDED such a loop is kept over every number of steps (R312). -/
theorem InLoop.hangs (h : InLoop T s) (hp : s.cfg.verifyPolicy = .unbounded) (hr : Rejected s) (k : Nat) :
    ∃ u, runs k s = .next u ∧ u.blk.seq = .wr6a ∧ u.host = s.host ∧ u.replies = s.replies ∧
      u.blk.result = s.blk.result ∧ u.blk.code = s.blk.code := by
  induction k generalizing s with
  | zero => exact ⟨s, rfl, h.seq, rfl, rfl, rfl, rfl⟩
  | succ k ih =>
    obtain ⟨hseq, hresult, hcode⟩ := iterationEnd_unbounded (hr.not_passes h.dir) hp
    obtain ⟨u, hrun, huseq, hhost, hreplies, huresult, hucode⟩ := ih (h.again hseq) hp (hr.again h.dir)
    exact ⟨u, (h.runs_succ k).trans hrun, huseq, hhost, hreplies, huresult.trans hresult, hucode.trans hcode⟩

/-- The samples an iteration takes (R206). -/
theorem iterationEnd_samples (T : ChipDesc) (s : State) : (iterationEnd T s).env.samples = s.env.samples + 2 := by
  rw [iterationEnd_env, replay_samples, iterationEvents, Trace.samples_iteration]

/-- Under BOUNDED such a loop spends its whole budget and fails (R209, R215). -/
theorem InLoop.fails {m : Nat} (h : InLoop T s) (hb : Budget m s) (hr : Rejected s) :
    ∃ u, runs (m + 1) s = .next u ∧ u.blk.seq = .idle ∧ u.blk.result = 0x100 ∧ u.blk.code = .writeFailed ∧
      u.env.samples = s.env.samples + 2 * (m + 1) := by
  have hpass : ¬ Passes T s := hr.not_passes h.dir
  induction m generalizing s with
  | zero =>
    obtain ⟨hseq, hresult, hcode⟩ := iterationEnd_spent hpass hb.bounded (hb.spent_iff.mpr rfl)
    exact ⟨_, h.runs_succ 0, hseq, hresult, hcode, iterationEnd_samples T s⟩
  | succ m ih =>
    obtain ⟨hseq, hiter⟩ := iterationEnd_again hpass hb.bounded (hb.spent_iff.not.mpr (by omega))
    have hr' : Rejected (iterationEnd T s) := hr.again h.dir
    obtain ⟨u, hrun, huseq, hresult, hcode, hsamples⟩ :=
      ih (h.again hseq) (hb.again hiter) hr' (hr'.not_passes (h.again hseq).dir)
    refine ⟨u, (h.runs_succ (m + 1)).trans hrun, huseq, hresult, hcode, ?_⟩
    rw [hsamples, iterationEnd_samples]
    omega

/-! ### The loop of a WRITE -/

/-- Against NEVER holding another byte the loop of WRITE is rejected (R73). -/
theorem loopEntry_rejected {c : RefChip} (v : Byte) (h : LatchReady s) (hd : s.env.device = .chip c)
    (hk : c.kind = .never) (hs : c.shadows = [])
    (hne : c.mem.read (c.index (reduce s.blk.addrReg T.capacity)) ≠ v) : Rejected (loopEntry T v s) := by
  have hdevice : (loopEntry T v s).env.device = .chip c := replay_never _ hd hk hs
  have hshows := ShowsByte.of_noShadows hdevice hs
  rw [loopEntry_latch v h] at hshows
  exact ⟨h.driven, c, _, hshows, hne⟩

/-- The loop of a WRITE has the whole budget (R205, R209). -/
theorem loopEntry_budget (v : Byte) (hp : s.cfg.verifyPolicy = .bounded) (hcap : 1 ≤ s.cfg.retryCap.toNat) :
    Budget (s.cfg.retryCap.toNat - 1) (loopEntry T v s) := by
  refine ⟨hp, ?_⟩
  change 0 + (s.cfg.retryCap.toNat - 1) + 1 = s.cfg.retryCap.toNat
  omega

end Sys2Proof.Machine
end

section
/-! The obligations on how WRITE ends (spec/44_write_verify_cycle.md R208 to R215, spec/70_reset_and_hazards.md R312). -/

namespace Sys2Proof.Machine

/-- Settles O22: the script answers the byte to both readings of the first iteration. -/
theorem writeSucceedsWhenReadBack : Obligations.WriteSucceedsWhenReadBack := by
  intro v rest s T ho hT hscript
  have hdevice : (loopEntry T v s).env.device = .script (v :: v :: rest) :=
    replay_script _ hscript (Trace.samples_writeLead _ _ _ _ _)
  obtain ⟨hx, hy, hrest⟩ := iteration_script (T := T) hdevice
  obtain ⟨hseq, hresult, hcode⟩ := iterationEnd_passed (T := T) (s := loopEntry T v s) ⟨hx.trans hy.symm, hx⟩
  obtain ⟨-, -, -, -, hcur, hdir, -, -, hoe, hwe, -, hdout, -⟩ := iterationEnd_keeps T (loopEntry T v s)
  exact ⟨_, exec_write_of_session ho hT v, hseq, hresult, hcode, hrest, hdir, hoe, hwe, hdout, hcur⟩

/-- Settles O25: the loop of WRITE has the budget RETRY_CAP, and `exec` runs its first iteration. -/
theorem boundedWriteEnds : Obligations.BoundedWriteEnds := by
  intro v s T ho hT hp hcap hhost
  have hloop := loopEntry_inLoop v hT hhost
  obtain ⟨k, u, hk, hrun, hover⟩ := hloop.ends (loopEntry_budget v hp hcap)
  exact ⟨_, k, u, exec_write_of_session ho hT v, by omega, (hloop.runs_succ k).symm.trans hrun, hover.seq, hover.host,
    hover.dir, hover.oe, hover.we, hover.dout, hover.result⟩

/-- Settles O26: against a chip that shows another byte every iteration of the loop fails and leads to the next. -/
theorem unboundedWriteHangs : Obligations.UnboundedWriteHangs := by
  refine ⟨fun s c hp hseq hchip hdir hdriven hhost hd _ hs hne k => ?loop,
    fun v s T c hinv _ ho hT hd hk hs hne hp hhost => ⟨_, exec_write_of_session ho hT v, fun k => ?write⟩⟩
  case loop =>
    obtain ⟨T, hT⟩ := Option.isSome_iff_exists.mp hchip
    have hloop : InLoop T s := ⟨hseq, hT, hdir, hhost⟩
    exact hloop.hangs hp ⟨hdriven, c, _, ShowsByte.of_noShadows hd hs, hne⟩ k
  case write =>
    have hloop := loopEntry_inLoop v hT hhost
    have hrejected := loopEntry_rejected v (latchReady_of_inv hinv ho) hd hk hs hne
    obtain ⟨u, hrun, hseq, huhost, hreplies, -⟩ := hloop.hangs hp hrejected (k + 1)
    exact ⟨u, (hloop.runs_succ k).symm.trans hrun, hseq, huhost, hreplies⟩

/-- Settles O28: the loop spends the budget RETRY_CAP, two samples an iteration. -/
theorem writeFailsAgainstNever : Obligations.WriteFailsAgainstNever := by
  intro v s T c hinv _ ho hT hd hk hs hne hp hcap hhost
  have hloop := loopEntry_inLoop v hT hhost
  have hrejected := loopEntry_rejected v (latchReady_of_inv hinv ho) hd hk hs hne
  obtain ⟨u, hrun, hseq, hresult, hcode, hsamples⟩ := hloop.fails (loopEntry_budget v hp hcap) hrejected
  refine ⟨_, u, exec_write_of_session ho hT v, (hloop.runs_succ _).symm.trans hrun, hseq, hresult, hcode, ?_⟩
  rw [hsamples, loopEntry_env, replay_samples, writeSetupEvents, Trace.samples_writeLead]
  omega

end Sys2Proof.Machine
end

section
/-! SUPPORT. What the write pulse of a WRITE stores in a reference chip (spec/44_write_verify_cycle.md R204,
spec/20_memory.md R71 to R73). -/

namespace Sys2Proof.Machine

variable {s : State} {T : ChipDesc} {c : RefChip} (v : Byte)

/-- A wait lets an array settle whose writes are visible by its end (R72). -/
theorem replay_wait_shows {a : Addr16} {w : Byte} (d : Word) (hd : s.env.device = .chip c)
    (hheld : c.mem.read (c.index a) = w)
    (hsettled : ∀ h ∈ c.shadows, h.addr = c.index a → h.visibleAt ≤ s.env.now + d.toNat) :
    ∃ c', (replay (Trace.wait d) s).env.device = .chip c' ∧ Shows c' (replay (Trace.wait d) s).env.now a w ∧
      SameChip c c' := by
  by_cases h0 : d = 0
  · subst h0
    exact ⟨c, hd, ⟨hheld, hsettled⟩, rfl, rfl, rfl⟩
  · have hevents : Trace.wait d = [.delay d.toNat] := if_neg h0
    rw [hevents]
    refine ⟨c.expire (s.env.now + d.toNat), by simp [Env.observe, Device.expire, hd], ⟨hheld, fun h hh => ?_⟩,
      rfl, rfl, rfl⟩
    exact hsettled h (List.mem_of_mem_filter hh)

/-- The registers the chip looks at when WE rises (R204). -/
theorem absorbAll_pulseSetup (cfg : Cfg) (cur a : Addr16) (b : Block) :
    let b' := absorbAll (Trace.pulseSetup cfg T cur a v) b
    b'.dir = .output ∧ b'.we = false ∧ b'.dout = v ∧ b'.driven = b.driven := by
  simp [Trace.pulseSetup, absorbAll_append, absorbAll_setAddress]

/-- The loop of WRITE begins after the rise of WE, its hold and the switch to input. -/
theorem loopEntry_env_eq : (loopEntry T v s).env
    = (replay [.dir .input] (replay (Trace.wait T.wc) (emit (.pin .we true) (atPulse T v s)))).env := by
  rw [loopEntry_env, writeSetupEvents, Trace.writeLead_eq, replay_append, replay_cons, replay_append]
  rfl

/-- The rise of WE commits the byte at the reduced address (R71, R204). -/
theorem emit_pulse_device (h : LatchReady s) (hT : s.blk.chip = some T) {c1 : RefChip}
    (hd : (atPulse T v s).env.device = .chip c1) :
    (emit (.pin .we true) (atPulse T v s)).env.device
      = .chip (c1.commit (atPulse T v s).env.now T.wc.toNat (reduce s.blk.addrReg T.capacity) v) := by
  obtain ⟨hdir, hwe, hdout, hdriven⟩ :=
    absorbAll_pulseSetup v (T := T) s.cfg s.blk.curAddr (reduce s.blk.addrReg T.capacity) s.blk
  have hblk : (atPulse T v s).blk = absorbAll _ s.blk := replay_blk _ s
  have hwc : wcTime (atPulse T v s).blk = T.wc.toNat := by
    rw [hblk, wcTime_absorbAll, wcTime, hT]
  rw [← hblk] at hdir hwe hdout hdriven
  have hedge : (risingEdge (atPulse T v s).blk (atPulse T v s).blk.we true && ((atPulse T v s).blk.dir == .output))
      = true := by
    simp [risingEdge, hdriven, h.driven, hwe, hdir]
  rw [emit_env, Env.observe, if_pos hedge, hd, hwc, hdout, atPulse_latch v h]
  rfl

/-- Before the loop of WRITE every byte of the chip but the addressed one stays (R62, R204). -/
theorem loopEntry_chip (h : LatchReady s) (hT : s.blk.chip = some T) (hd : s.env.device = .chip c) :
    ∃ c', (loopEntry T v s).env.device = .chip c' ∧ c'.kind = c.kind ∧ c'.capacity = c.capacity ∧
      ∀ k, k ≠ c.index (reduce s.blk.addrReg T.capacity) → c'.mem.read k = c.mem.read k := by
  obtain ⟨c1, hd1, hsame1⟩ := replay_sameChip (Trace.pulseSetup s.cfg T s.blk.curAddr
    (reduce s.blk.addrReg T.capacity) v) hd (Trace.writes_we_pulseSetup _ _ _ _ _)
  have hd2 := emit_pulse_device v h hT hd1
  obtain ⟨hkind, hcap⟩ := c1.commit_same (atPulse T v s).env.now T.wc.toNat (reduce s.blk.addrReg T.capacity) v
  obtain ⟨c3, hd3, hsame3⟩ := replay_sameChip (Trace.wait T.wc ++ [.dir .input]) hd2 (by simp [Trace.writes_append])
  refine ⟨c3, ?_, hsame3.kind.trans (hkind.trans hsame1.kind), hsame3.capacity.trans (hcap.trans hsame1.capacity),
    fun k hk => ?_⟩
  · rw [loopEntry_env_eq, ← replay_append]
    exact hd3
  · rw [hsame3.mem, c1.commit_read_other _ _ _ _ (by rwa [RefChip.index, hsame1.capacity]), hsame1.mem]

/-- Against IDEAL and DELAYED the loop of WRITE begins with the byte shown at the reduced address (R71, R72, R215). -/
theorem loopEntry_shows (h : LatchReady s) (hT : s.blk.chip = some T) (hd : s.env.device = .chip c)
    (hmem : c.mem.wf) (hk : c.kind = .ideal ∨ c.kind = .delayed) (hs : c.kind = .ideal → c.shadows = []) :
    ∃ c', ShowsByte c' v (loopEntry T v s) := by
  set a := reduce s.blk.addrReg T.capacity
  set p := atPulse T v s
  obtain ⟨c1, hd1, hsame1, hs1⟩ : ∃ c1, p.env.device = .chip c1 ∧ SameChip c c1 ∧
      (c1.kind = .ideal → c1.shadows = []) := by
    have hwe := Trace.writes_we_pulseSetup s.cfg T s.blk.curAddr a v
    by_cases hideal : c.kind = .ideal
    · obtain ⟨c1, hd1, hs1, hsame1⟩ := replay_noShadows _ hd (hs hideal) hwe
      exact ⟨c1, hd1, hsame1, fun _ => hs1⟩
    · obtain ⟨c1, hd1, hsame1⟩ := replay_sameChip _ hd hwe
      exact ⟨c1, hd1, hsame1, fun h1 => absurd (hsame1.kind.symm.trans h1) hideal⟩
  rw [← hsame1.mem] at hmem
  rw [← hsame1.kind] at hk
  set q := emit (.pin .we true) p
  have hnow : q.env.now = p.env.now := observe_now p.env p.blk (.pin .we true)
  have hindex : (c1.commit p.env.now T.wc.toNat a v).index a = c1.index a := by
    rw [RefChip.index, (c1.commit_same _ _ _ _).2, RefChip.index]
  obtain ⟨c2, hd2, hshown, -⟩ := replay_wait_shows (w := v) (a := a) T.wc (emit_pulse_device v h hT hd1)
    (by rw [hindex, RefChip.commit_read_same hmem hk])
    (by rw [hindex, hnow]; exact RefChip.commit_settled hk hs1 _ _ _ _)
  obtain ⟨c3, hd3, hshown3, -⟩ := replay_shows [.dir .input] hd2 hshown (by simp)
  refine ⟨c3, ?_, ?_⟩
  · rw [loopEntry_env_eq]
    exact hd3
  · rw [loopEntry_latch v h, loopEntry_env_eq]
    exact hshown3

end Sys2Proof.Machine
end

section
/-! The obligations on WRITE against a reference chip and on its frame (spec/44_write_verify_cycle.md R215). -/

namespace Sys2Proof.Machine

/-- Settles O27: the pulse commits the byte, its hold lets a DELAYED chip settle, and both readings answer it. -/
theorem writeStoresInReferenceChip : Obligations.WriteStoresInReferenceChip := by
  intro v s T c hinv _ ho hT hd hk hcap hs
  have hready := latchReady_of_inv hinv ho
  have hmem : c.mem.wf := by
    have hwf := hinv.memory
    rwa [hd] at hwf
  set a := reduce s.blk.addrReg T.capacity
  obtain ⟨c1, hd1, -, hcap1, hothers⟩ := loopEntry_chip v hready hT hd
  obtain ⟨c1', hshows⟩ := loopEntry_shows v hready hT hd hmem hk hs
  obtain rfl : c1 = c1' := Device.chip.inj (hd1.symm.trans hshows.device)
  obtain ⟨hx, hy, c2, hshows2, hsame2⟩ := hshows.iteration (T := T) hready.driven rfl
  obtain ⟨hseq, hresult, hcode⟩ := iterationEnd_passed (T := T) (s := loopEntry T v s) ⟨hx.trans hy.symm, hx⟩
  have hlatch : (iterationEnd T (loopEntry T v s)).env.latch = a := by
    rw [iterationEnd_env, replay_latch_keep _ _ (by simp [iterationEvents])]
    exact loopEntry_latch v hready
  have hshown := hshows2.shown
  rw [hlatch] at hshown
  have hlt : a.toNat < T.capacity.toNat :=
    (reduce_lt s.blk.addrReg (hinv.usable T hT)).trans_le (Nat.min_le_left _ _)
  have hindex : ∀ d : RefChip, d.capacity = T.capacity.toNat → d.index a = a.toNat := fun d hdcap => by
    rw [RefChip.index, hdcap, Nat.mod_eq_of_lt hlt]
  refine ⟨_, c2, exec_write_of_session ho hT v, hseq, hresult, hcode, hshows2.device, ?_, hshown.output,
    fun k hk => ?_⟩
  · rw [← hindex c2 (hsame2.capacity.trans (hcap1.trans hcap))]
    exact hshown.held
  · rw [hsame2.mem, hothers k (by rwa [hindex c hcap])]

/-- Settles O29: WRITE stores in its one pulse, and an error stores nothing. -/
theorem writeFrame : Obligations.WriteFrame := by
  intro v s t hinv h
  obtain ⟨T, ho, hT, hrun⟩ | ⟨e, -, hmode, hrun⟩ := exec_write_cases s v
  · cases hrun.symm.trans h
    obtain ⟨hopen, hchip, hstg, haddr, -, -, -, -, -, -, hdriven, -, -⟩ := iterationEnd_keeps T (loopEntry T v s)
    refine ⟨rfl, rfl, rfl, hopen, hchip, hstg, haddr, hdriven, fun c hd => ?_⟩
    obtain ⟨c1, hd1, hkind, hcap, hothers⟩ := loopEntry_chip v (latchReady_of_inv hinv ho) hT hd
    obtain ⟨c2, hd2, hsame⟩ := replay_sameChip (iterationEvents T (loopEntry T v s)) hd1 (by simp [iterationEvents])
    refine ⟨c2, hd2, hsame.kind.trans hkind, hsame.capacity.trans hcap, fun hmode => ?_, fun T' _ hT' k hk => ?_⟩
    · simp [ho, hT] at hmode
    · cases hT.symm.trans hT'
      rw [hsame.mem, hothers k hk]
  · cases hrun.symm.trans h
    exact ⟨rfl, rfl, rfl, rfl, rfl, rfl, rfl, rfl, fun c hd => ⟨c, hd, rfl, rfl, fun _ _ => rfl, fun _ _ _ _ _ => rfl⟩⟩

end Sys2Proof.Machine
end

section
/-! SUPPORT. All five commands at once: that each answers, the events it emits, RESULT and its code
(spec/60_exceptions.md section 1, spec/10_state.md R10, R33). -/

namespace Sys2Proof.Machine

/-- `t` comes from `s` by the events `es`, which the trace has and the environment has seen; the registers are left
open. -/
structure Emitted (es : List Event) (s t : State) : Prop where
  trace : t.trace = s.trace ++ es
  env   : t.env = (replay es s).env

theorem emitted_nil {s t : State} (htrace : t.trace = s.trace) (henv : t.env = s.env) : Emitted [] s t :=
  ⟨by simpa using htrace, henv⟩

variable (i : Instr) (s : State)

/-- The events of a command that has the pre-checks of READ and WRITE (R180, R200, R262). -/
def sessionEvents (es : ChipDesc → List Event) : List Event :=
  if s.blk.isOpen then s.blk.chip.elim [] es else []

/-- The events `exec` of a command emits. -/
def commandEvents : List Event :=
  match i with
  | .openCmd  => Trace.openCmd s.cfg
  | .closeCmd => [.dir .input]
  | .setchip  => []
  | .read     => sessionEvents s fun T => readEvents T s
  | .write v  => sessionEvents s fun T => writeSetupEvents T v s ++ iterationEvents T (loopEntry T v s)

variable {s}

theorem sessionEvents_bound {T : ChipDesc} (ho : s.blk.isOpen = true) (hT : s.blk.chip = some T)
    (es : ChipDesc → List Event) : sessionEvents s es = es T := by
  simp [sessionEvents, ho, hT]

theorem sessionEvents_refused (h : s.blk.isOpen = false ∨ s.blk.chip = none) (es : ChipDesc → List Event) :
    sessionEvents s es = [] := by
  obtain hc | hn := h
  · simp [sessionEvents, hc]
  · simp [sessionEvents, hn]

/-- In a session or not, a property of the events follows from the two cases. -/
theorem sessionEvents_cases (es : ChipDesc → List Event) :
    (∃ T, s.blk.isOpen = true ∧ s.blk.chip = some T ∧ sessionEvents s es = es T) ∨
    ((s.blk.isOpen = false ∨ s.blk.chip = none) ∧ sessionEvents s es = []) := by
  obtain ⟨ho, T, hT⟩ | ⟨-, hn⟩ | hc := session_cases s.blk
  · exact .inl ⟨T, ho, hT, sessionEvents_bound ho hT es⟩
  · exact .inr ⟨.inr hn, sessionEvents_refused (.inr hn) es⟩
  · exact .inr ⟨.inl hc, sessionEvents_refused (.inl hc) es⟩

variable (s)

theorem exec_setchip_cases :
    (s.blk.stg.capacity = 0 ∧ exec .setchip s = .next (raise .badChip s)) ∨
    (s.blk.stg.capacity ≠ 0 ∧ exec .setchip s =
      .next { s with blk := { s.blk with chip := some s.blk.stg, result := 0x000, code := .ok, seq := .idle } }) := by
  obtain ⟨-, hset⟩ := setchipBindsOrRefuses
  by_cases hcap : s.blk.stg.capacity = 0
  · exact .inl ⟨hcap, exec_setchip_of_capacity_eq_zero hcap⟩
  · exact .inr ⟨hcap, (hset s).1 hcap⟩

variable {i s}

/-- Without a session READ and WRITE are refused (R263). -/
theorem exec_notOpen (hi : i = .read ∨ ∃ v, i = .write v) (h : s.blk.isOpen = false) :
    exec i s = .next (raise .notOpen s) := by
  obtain rfl | ⟨v, rfl⟩ := hi <;> exact withSession_notOpen h _

/-- What a command emits, whenever it answers. -/
theorem exec_emitted {t : State} (h : exec i s = .next t) : Emitted (commandEvents i s) s t := by
  cases i with
  | openCmd =>
    cases (exec_open_eq_replay s).symm.trans h
    constructor <;> simp [openDone, commandEvents]
  | closeCmd =>
    cases (exec_close_eq_replay s).symm.trans h
    exact ⟨rfl, rfl⟩
  | setchip =>
    obtain ⟨-, hrun⟩ | ⟨-, hrun⟩ := exec_setchip_cases s <;> cases hrun.symm.trans h <;> exact emitted_nil rfl rfl
  | read =>
    obtain ⟨T, ho, hT, hrun⟩ | ⟨e, -, hmode, hrun⟩ := exec_read_cases s <;> cases hrun.symm.trans h
    · rw [commandEvents, sessionEvents_bound ho hT]
      exact ⟨rfl, rfl⟩
    · rw [commandEvents, sessionEvents_refused hmode]
      exact emitted_nil rfl rfl
  | write v =>
    obtain ⟨T, ho, hT, hrun⟩ | ⟨e, -, hmode, hrun⟩ := exec_write_cases s v <;> cases hrun.symm.trans h
    · rw [commandEvents, sessionEvents_bound ho hT]
      refine ⟨by simp, ?_⟩
      rw [replay_append, iterationEnd_env]
      exact replay_env_congr _ (loopEntry_sameWires T v s) rfl
    · rw [commandEvents, sessionEvents_refused hmode]
      exact emitted_nil rfl rfl

/-! ### RESULT and its code (R33) -/

/-- Bit 8 of RESULT is set exactly when the code is not OK, and then RESULT is the sentinel (R33). -/
def MarksFailure (b : Block) : Prop :=
  (b.result.getLsbD 8 = true ↔ b.code ≠ .ok) ∧ (b.code ≠ .ok → b.result = 0x100)

theorem marksFailure_of_ok {b : Block} (r : BitVec 9) (hcode : b.code = .ok) (hresult : b.result = r)
    (hbit : r.getLsbD 8 = false) : MarksFailure b :=
  ⟨iff_of_false (hresult ▸ hbit ▸ Bool.false_ne_true) (not_not.mpr hcode), fun h => absurd hcode h⟩

theorem marksFailure_of_sentinel {b : Block} (hcode : b.code ≠ .ok) (hresult : b.result = 0x100) :
    MarksFailure b := by
  simp [MarksFailure, hcode, hresult]

/-- A byte leaves the failure bit 0 (R33). -/
theorem zext9_getLsbD_eight (v : Byte) : (zext9 v).getLsbD 8 = false := by
  simp [zext9]

theorem marksFailure_raise {e : Code} (he : e ≠ .ok) (s : State) : MarksFailure (raise e s).blk :=
  marksFailure_of_sentinel he rfl

/-- The end of an iteration that ends the command. -/
theorem marksFailure_iterationEnd {T : ChipDesc} (h : (iterationEnd T s).blk.seq = .idle) :
    MarksFailure (iterationEnd T s).blk := by
  obtain ⟨-, hcode, hresult, -⟩ | ⟨-, hcode, hresult⟩ | hagain := afterTest_cases s.cfg (testedBlock T s)
  · exact marksFailure_of_ok _ hcode hresult (zext9_getLsbD_eight _)
  · exact marksFailure_of_sentinel (by rw [iterationEnd_blk, hcode]; decide) hresult
  · rw [iterationEnd_blk, hagain] at h
    cases h

end Sys2Proof.Machine
end

section
/-! The obligations on all commands (spec/60_exceptions.md section 1, spec/10_state.md R23, R33,
spec/44_write_verify_cycle.md R204) and the frame of the session commands (spec/45_session_commands.md). -/

namespace Sys2Proof.Machine

/-- Settles O39: in every mode each command ends in the state of its cycle or in that of an error. -/
theorem everyCommandAnswers : Obligations.EveryCommandAnswers := by
  intro i s
  cases i with
  | openCmd => exact ⟨_, exec_open_eq_replay s⟩
  | closeCmd => exact ⟨_, exec_close_eq_replay s⟩
  | setchip => obtain ⟨-, hrun⟩ | ⟨-, hrun⟩ := exec_setchip_cases s <;> exact ⟨_, hrun⟩
  | read => obtain ⟨T, -, -, hrun⟩ | ⟨e, -, -, hrun⟩ := exec_read_cases s <;> exact ⟨_, hrun⟩
  | write v => obtain ⟨T, -, -, hrun⟩ | ⟨e, -, -, hrun⟩ := exec_write_cases s v <;> exact ⟨_, hrun⟩

/-- Settles O40: a command ends with `OK` and a result of at most eight bits, or with an error and the sentinel. -/
theorem sentinelMarksFailure : Obligations.SentinelMarksFailure := by
  intro i s t h hidle
  change MarksFailure t.blk
  cases i with
  | openCmd =>
    cases (exec_open_eq_replay s).symm.trans h
    exact marksFailure_of_ok 0x001 rfl rfl (by decide)
  | closeCmd =>
    cases (exec_close_eq_replay s).symm.trans h
    exact marksFailure_of_ok 0x000 rfl rfl (by decide)
  | setchip =>
    obtain ⟨-, hrun⟩ | ⟨-, hrun⟩ := exec_setchip_cases s <;> cases hrun.symm.trans h
    · exact marksFailure_raise (by decide) s
    · exact marksFailure_of_ok 0x000 rfl rfl (by decide)
  | read =>
    obtain ⟨T, -, -, hrun⟩ | ⟨e, he, -, hrun⟩ := exec_read_cases s <;> cases hrun.symm.trans h
    · exact marksFailure_of_ok _ rfl rfl (zext9_getLsbD_eight _)
    · exact marksFailure_raise he s
  | write v =>
    obtain ⟨T, -, -, hrun⟩ | ⟨e, he, -, hrun⟩ := exec_write_cases s v <;> cases hrun.symm.trans h
    · exact marksFailure_iterationEnd hidle
    · exact marksFailure_raise he s

/-- Settles O41: only OPEN's events write the drivers. -/
theorem onlyOpenDrivesPins : Obligations.OnlyOpenDrivesPins := by
  intro i s t h
  cases i with
  | openCmd =>
    obtain ⟨-, -, hopen⟩ := openInitialises
    cases (hopen s).symm.trans h
    rfl
  | closeCmd =>
    cases (exec_close_eq_replay s).symm.trans h
    rfl
  | setchip => obtain ⟨-, hrun⟩ | ⟨-, hrun⟩ := exec_setchip_cases s <;> cases hrun.symm.trans h <;> rfl
  | read => obtain ⟨T, -, -, hrun⟩ | ⟨e, -, -, hrun⟩ := exec_read_cases s <;> cases hrun.symm.trans h <;> rfl
  | write v =>
    obtain ⟨T, -, -, hrun⟩ | ⟨e, -, -, hrun⟩ := exec_write_cases s v <;> cases hrun.symm.trans h
    · simp [iterationEnd_keeps, loopEntry]
    · rfl

/-- Settles O36: the updates of O32, O34 and O35; OPEN raises WE with the bus input, so it stores nothing. -/
theorem sessionCommandsFrame : Obligations.SessionCommandsFrame := by
  rintro i s t (rfl | rfl | rfl) h
  · obtain ⟨-, -, hopen⟩ := openInitialises
    cases (hopen s).symm.trans h
    refine ⟨rfl, rfl, rfl, rfl, rfl, rfl, rfl, rfl, rfl, rfl, rfl, fun _ => rfl, by simp, by simp, fun c hd => ?_⟩
    obtain ⟨s', es, hevents, henv, hwe⟩ := replay_openCmd_eq s.cfg s
    obtain ⟨c', hd', hsame⟩ := replay_sameChip (s := s') es (henv ▸ hd) hwe
    exact hsame.frame (hevents ▸ hd')
  · cases (exec_close_eq_replay s).symm.trans h
    exact ⟨rfl, rfl, rfl, rfl, rfl, rfl, rfl, rfl, rfl, rfl, rfl, fun _ => rfl,
      fun _ => ⟨rfl, rfl, rfl, rfl, rfl, rfl, rfl⟩, by simp, fun c hd => (SameChip.refl c).frame hd⟩
  · obtain ⟨-, hrun⟩ | ⟨-, hrun⟩ := exec_setchip_cases s <;> cases hrun.symm.trans h <;>
      exact ⟨rfl, rfl, rfl, rfl, rfl, rfl, rfl, rfl, rfl, rfl, rfl, by simp,
        fun _ => ⟨rfl, rfl, rfl, rfl, rfl, rfl, rfl⟩, fun _ => ⟨rfl, rfl, rfl, rfl⟩,
        fun c hd => (SameChip.refl c).frame hd⟩

end Sys2Proof.Machine
end

section
/-! SUPPORT. The fields `clock` and `acc` of a chip description (spec/45_session_commands.md R240): no event list and no
rule of READ and WRITE looks at them. -/

namespace Sys2Proof.Machine

/-- `T` with another `clock` and another `acc`. -/
def reclock (clock acc : Word) (T : ChipDesc) : ChipDesc := { T with clock := clock, acc := acc }

/-- `s` with another chip description bound. -/
def rebind (T : ChipDesc) (s : State) : State := { s with blk := { s.blk with chip := some T } }

variable {clock acc : Word} {T : ChipDesc} {s : State}

/-- The wires and the write time stay. -/
theorem sameWires_rebind (hT : s.blk.chip = some T) : SameWires (rebind (reclock clock acc T) s).blk s.blk :=
  ⟨rfl, rfl, rfl, rfl, rfl, rfl, rfl, rfl, by simp [wcTime, hT, rebind, reclock]⟩

theorem readEnd_rebind (hT : s.blk.chip = some T) :
    readEnd (reclock clock acc T) (rebind (reclock clock acc T) s)
      = rebind (reclock clock acc T) (readEnd T s) := by
  have hwires := sameWires_rebind (clock := clock) (acc := acc) hT
  have hbyte : readByteSampled (reclock clock acc T) (rebind (reclock clock acc T) s) = readByteSampled T s :=
    sample_replay_congr _ hwires rfl
  have hevents : readEvents (reclock clock acc T) (rebind (reclock clock acc T) s) = readEvents T s := by
    rw [readEvents, hbyte]
    rfl
  rw [readEnd, hevents, hbyte, replay_env_congr _ hwires rfl]
  rfl

theorem loopEntry_rebind (hT : s.blk.chip = some T) (v : Byte) :
    loopEntry (reclock clock acc T) v (rebind (reclock clock acc T) s)
      = rebind (reclock clock acc T) (loopEntry T v s) := by
  have hwires := sameWires_rebind (clock := clock) (acc := acc) hT
  have hevents : writeSetupEvents (reclock clock acc T) v (rebind (reclock clock acc T) s)
      = writeSetupEvents T v s := rfl
  rw [loopEntry, hevents, replay_env_congr _ hwires rfl]
  rfl

/-- The test and the policy do not look at the binding (R208, R209). -/
theorem afterTest_chip (c : Cfg) (b : Block) (o : Option ChipDesc) :
    afterTest c { b with chip := o } = { afterTest c b with chip := o } := by
  unfold afterTest
  split_ifs <;> rfl

theorem iterationEnd_rebind (hT : s.blk.chip = some T) :
    iterationEnd (reclock clock acc T) (rebind (reclock clock acc T) s)
      = rebind (reclock clock acc T) (iterationEnd T s) := by
  set T' := reclock clock acc T
  have hwires : SameWires (rebind T' s).blk s.blk := sameWires_rebind hT
  have hx : firstByte T' (rebind T' s) = firstByte T s := sample_replay_congr _ hwires rfl
  have hy : secondByte T' (rebind T' s) = secondByte T s := by
    rw [secondByte, hx]
    exact sample_replay_congr _ hwires rfl
  have hevents : iterationEvents T' (rebind T' s) = iterationEvents T s := by
    rw [iterationEvents, hx, hy]
    rfl
  have htested : testedBlock T' (rebind T' s) = { testedBlock T s with chip := some T' } := by
    rw [testedBlock, hx, hy]
    rfl
  rw [iterationEnd, hevents, htested, replay_env_congr _ hwires rfl, afterTest_chip]
  rfl

end Sys2Proof.Machine
end

section
/-! The obligation on the unused fields of a chip description (spec/45_session_commands.md R240). -/

namespace Sys2Proof.Machine

/-- Settles O42: without a session both descriptions are refused alike; in one, the binding is all that differs. -/
theorem clockAndAccUnused : Obligations.ClockAndAccUnused := by
  intro s T clock acc i hi T' t h
  change exec i (rebind T s) = _ at h
  change exec i (rebind T' s) = .next (rebind T' t)
  obtain hc | ho := (Bool.eq_false_or_eq_true s.blk.isOpen).symm
  · cases (exec_notOpen (s := rebind T s) hi hc).symm.trans h
    exact exec_notOpen (s := rebind T' s) hi hc
  · obtain rfl | ⟨v, rfl⟩ := hi
    · cases (exec_read_eq_readEnd (s := rebind T s) ho rfl).symm.trans h
      rw [exec_read_eq_readEnd (s := rebind T' s) ho rfl]
      exact congrArg _ (readEnd_rebind (s := rebind T s) rfl)
    · cases (exec_write_of_session (s := rebind T s) ho rfl v).symm.trans h
      rw [exec_write_of_session (s := rebind T' s) ho rfl v]
      have hentry : loopEntry T' v (rebind T' s) = rebind T' (loopEntry T v (rebind T s)) :=
        loopEntry_rebind (s := rebind T s) rfl v
      rw [hentry]
      exact congrArg _ (iterationEnd_rebind (s := loopEntry T v (rebind T s)) rfl)

end Sys2Proof.Machine
end

section
/-! SUPPORT. What one step can do, said once: which input it takes, what an access performs, and where a reset cuts it
(spec/10_state.md R42, spec/70_reset_and_hazards.md R302). -/

namespace Sys2Proof.Machine

variable {s t : State}

theorem andThen_next_right {α : Type} (o : Out α) : andThen o .next = o := by
  cases o <;> rfl

theorem step_of_idle (h : s.blk.seq = .idle) : step s = acceptInput s := by
  unfold step
  rw [h]

theorem acceptInput_nil (h : s.host = []) : acceptInput s = .next s := by
  rw [acceptInput, h]

theorem acceptInput_reset {n : Nat} {rest : List HostInput} (h : s.host = .reset n :: rest) :
    acceptInput s = .next (resetBlock { s with host := rest }) := by
  rw [acceptInput, h]

theorem acceptInput_access {a : Access} {rest : List HostInput} (h : s.host = .access a :: rest) :
    acceptInput s =
      andThen (perform a { s with host := rest }) fun t => .next (cutByReset { s with host := rest } t) := by
  rw [acceptInput, h]

/-- A step answers `t`. -/
inductive Stepped (s : State) : State → Prop where
  /-- The block is idle and there is no input (R273). -/
  | waits (hseq : s.blk.seq = .idle) (hhost : s.host = []) : Stepped s s
  /-- The block is idle and the next input is a reset (R300). -/
  | resets {n : Nat} {rest : List HostInput} (hseq : s.blk.seq = .idle) (hhost : s.host = .reset n :: rest) :
      Stepped s (resetBlock { s with host := rest })
  /-- The block is idle and performs the next access (R42). -/
  | performs {a : Access} {rest : List HostInput} {u : State} (hseq : s.blk.seq = .idle)
      (hhost : s.host = .access a :: rest) (hrun : perform a { s with host := rest } = .next u) :
      Stepped s (cutByReset { s with host := rest } u)
  /-- A running command goes on (R42, R312). -/
  | goesOn {u : State} (hseq : s.blk.seq ≠ .idle) (hrun : resume s = .next u) : Stepped s (cutByReset s u)

theorem stepped_of_step (h : step s = .next t) : Stepped s t := by
  by_cases hseq : s.blk.seq = .idle
  · rw [step_of_idle hseq] at h
    cases hhost : s.host with
    | nil =>
      cases (acceptInput_nil hhost).symm.trans h
      exact .waits hseq hhost
    | cons x rest =>
      cases x with
      | reset n =>
        cases (acceptInput_reset hhost).symm.trans h
        exact .resets hseq hhost
      | access a =>
        rw [acceptInput_access hhost] at h
        obtain ⟨u, hrun, hcut⟩ := andThen_eq_next.mp h
        cases hcut
        exact .performs hseq hhost hrun
  · rw [step_of_running hseq] at h
    obtain ⟨u, hrun, hcut⟩ := andThen_eq_next.mp h
    cases hcut
    exact .goesOn hseq hrun

/-- An access answers `t`. -/
inductive Performed (s : State) : State → Prop where
  /-- A legal word was written to CMD (R31, R95). -/
  | command {i : Instr} {t : State} (hrun : exec i s = .next t) : Performed s t
  /-- An illegal word was written to CMD (R94). -/
  | badCmd : Performed s (raise .badCmd s)
  /-- Any other access reaches ADDR, the staged description and the replies at most (R41). -/
  | registers (w : Word) (d : ChipDesc) (vs : List Word) :
      Performed s { s with blk := { s.blk with addrReg := w, stg := d }, replies := vs }

theorem performed_hostWrite {idx : BitVec 5} {w : Word} (h : hostWrite idx w s = .next t) : Performed s t := by
  obtain ⟨r, rfl⟩ | hres := index_cases idx
  · by_cases hcmd : r = .cmd
    · subst hcmd
      have hrun : runCommand w s = .next t := h
      rw [runCommand] at hrun
      split at hrun
      · exact .command hrun
      · cases hrun
        exact .badCmd
    · cases (hostWrite_regIndex s w hcmd).symm.trans h
      cases r with
      | addr => exact .registers w s.blk.stg s.replies
      | chip f => exact .registers s.blk.addrReg (descSet s.blk.stg w f) s.replies
      | _ => exact .registers s.blk.addrReg s.blk.stg s.replies
  · cases (hostWrite_reserved s w hres).symm.trans h
    exact .registers s.blk.addrReg s.blk.stg s.replies

theorem performed_of_perform {a : Access} (h : perform a s = .next t) : Performed s t := by
  cases a with
  | write idx w => exact performed_hostWrite h
  | read idx =>
    cases h
    exact .registers s.blk.addrReg s.blk.stg _

/-- A pending reset cuts the step within its events, or comes later and changes the host's inputs only (R302). -/
theorem cutByReset_cases (s t : State) :
    (∃ n rest, s.host = .reset n :: rest ∧
      cutByReset s t = resetBlock { replay ((newEvents s t).take n) s with host := rest }) ∨
    ∃ inputs, cutByReset s t = { t with host := inputs } := by
  by_cases hreset : ∃ n rest, s.host = .reset n :: rest
  · obtain ⟨n, rest, hhost⟩ := hreset
    by_cases hn : n < (newEvents s t).length
    · exact .inl ⟨n, rest, hhost, cutByReset_at hhost hn⟩
    · exact .inr ⟨_, cutByReset_later hhost hn⟩
  · exact .inr ⟨t.host, cutByReset_none (by simpa using hreset) t⟩

/-- What a step emits is a beginning of what it would emit with no reset pending (R302). -/
theorem Emitted.cut {es : List Event} (h : Emitted es s t) : ∃ es', es' <+: es ∧ Emitted es' s (cutByReset s t) := by
  obtain ⟨n, rest, -, hcut⟩ | ⟨inputs, hcut⟩ := cutByReset_cases s t
  · rw [newEvents_of_trace h.trace] at hcut
    exact ⟨es.take n, es.take_prefix n, by simp [hcut], by simp [hcut]⟩
  · exact ⟨es, List.prefix_rfl, by rw [hcut]; exact h.trace, by rw [hcut]; exact h.env⟩

/-- In output direction an iteration is refused at its first sample (R163, U4). -/
theorem writeFromWR6a_output (T : ChipDesc) (h : s.blk.dir = .output) :
    writeFromWR6a T s = .refused .readByteWhileOutput := by
  have hdir : (setPin .oe false T.oe (atPhase .wr6a s)).blk.dir = .output := by rw [setPin_blk]; exact h
  rw [writeFromWR6a, writeWR6a, verifyReading, readByte_output hdir]
  rfl

/-- Whatever a step from WR6a emits is a beginning of one iteration (R206, R302). -/
theorem emitted_of_wr6a (hseq : s.blk.seq = .wr6a) (h : step s = .next t) :
    ∃ T es, es <+: iterationEvents T s ∧ Emitted es s t := by
  have hrun := h
  rw [step_of_running (by simp [hseq])] at hrun
  obtain ⟨u, hresume, -⟩ := andThen_eq_next.mp hrun
  rw [resume, hseq] at hresume
  cases hT : s.blk.chip with
  | none => simp [withBound, hT] at hresume
  | some T =>
    cases hdir : s.blk.dir with
    | output => simp [withBound, hT, writeFromWR6a_output T hdir] at hresume
    | input =>
      cases (step_of_wr6a hseq hT hdir).symm.trans h
      exact ⟨T, (Emitted.mk rfl rfl : Emitted (iterationEvents T s) s (iterationEnd T s)).cut⟩

end Sys2Proof.Machine
end

section
/-! SUPPORT. Event lists over a step: a beginning of a list writes a pin no more often than the list, and the bus rule over
the events of a command (spec/10_state.md R45, spec/70_reset_and_hazards.md R316). -/

namespace Sys2Proof.Trace

open Machine

variable {es fs : List Event} (c : Cfg) (T : ChipDesc) (cur a : Addr16) (v x y : Byte)

theorem writes_eq_zero_of_isPrefix {p : Pin} {l : Level} (h : es <+: fs) (h0 : writes p l fs = 0) :
    writes p l es = 0 :=
  Nat.eq_zero_of_le_zero (h0 ▸ h.sublist.count_le _)

/-- The rule holds of every beginning of a list it holds of. -/
theorem busSafe_of_isPrefix (b : Block) (h : es <+: fs) (hfs : busSafe b.oe b.dir fs = true) :
    busSafe b.oe b.dir es = true := by
  obtain ⟨gs, rfl⟩ := h
  rw [busSafe_append, Bool.and_eq_true] at hfs
  exact hfs.1

/-- With the chip's outputs disabled nothing but a fall of OE can break the rule. -/
theorem busSafe_disabled (d : Dir) (h : .pin .oe false ∉ es) : busSafe true d es = true := by
  induction es generalizing d with
  | nil => simp [busSafe]
  | cons e es ih =>
    obtain ⟨hne, htail⟩ := not_or.mp (List.mem_cons.not.mp h)
    cases e with
    | pin p l =>
      cases p
      case oe =>
        cases l
        · exact absurd rfl hne
        · simp [busSafe, ih _ htail]
      all_goals simp [busSafe, ih _ htail]
    | _ => simp [busSafe, ih _ htail]

/-- With the bus input nothing but a switch to output can break the rule. -/
theorem busSafe_of_no_output (oe : Level) (h : .dir .output ∉ es) : busSafe oe .input es = true :=
  busSafe_input es oe fun _ he heq => h (heq ▸ he)

@[simp] theorem mem_wait (e : Event) (d : Word) : e ∈ wait d ↔ d ≠ 0 ∧ e = .delay d.toNat := by
  unfold wait
  split <;> simp_all

@[simp] theorem mem_setPin (e : Event) (p : Pin) (l : Level) (d : Word) :
    e ∈ setPin p l d ↔ e = .pin p l ∨ e ∈ wait d := by
  rw [setPin, List.mem_cons]

/-- `SetAddress` neither turns the bus nor moves OE (R142 to R147). -/
theorem notMem_setAddress {e : Event} (hpin : ∀ p l, p ≠ .oe → e ≠ .pin p l) (hdelay : ∀ n, e ≠ .delay n) :
    e ∉ setAddress c cur a := by
  unfold setAddress
  split
  · exact List.not_mem_nil
  · simp [shiftLatch, shiftBit, latchPulse, hpin, hdelay]

@[simp] theorem dir_notMem_setAddress (d : Dir) : .dir d ∉ setAddress c cur a :=
  notMem_setAddress c cur a (by simp) (by simp)

@[simp] theorem oe_notMem_setAddress (l : Level) : .pin .oe l ∉ setAddress c cur a :=
  notMem_setAddress c cur a (fun _ _ hp h => hp (Event.pin.inj h).1.symm) (by simp)

theorem output_notMem_openCmd : .dir .output ∉ openCmd c := by
  simp [openCmd, shiftLatch, shiftBit, latchPulse]

theorem output_notMem_readLead : .dir .output ∉ readLead c T cur a := by
  simp [readLead]

theorem output_notMem_iteration : .dir .output ∉ iteration c T x y := by
  simp [iteration, reading]

/-- WRITE disables the chip's outputs before it turns the bus, and turns it back before its first reading (R201 to
R205). -/
theorem busSafe_writeLead (oe : Level) : busSafe oe .input (writeLead c T cur a v) = true := by
  have hlead : writeLead c T cur a v = .pin .oe true :: (wait T.od ++ setAddress c cur a ++ [.dir .output, .drv v]
      ++ setPin .we false T.wp ++ setPin .we true T.wc ++ [.dir .input]) := rfl
  rw [hlead, busSafe, busSafe_disabled _ (by simp)]
  rfl

end Sys2Proof.Trace

namespace Sys2Proof.Machine

/-- From a state with the bus input every command keeps the rule. -/
theorem busSafe_commandEvents (i : Instr) {s : State} (hdir : s.blk.dir = .input) :
    Trace.busSafe s.blk.oe s.blk.dir (commandEvents i s) = true := by
  cases i with
  | openCmd => exact hdir ▸ Trace.busSafe_of_no_output _ (Trace.output_notMem_openCmd _)
  | closeCmd => simp [commandEvents, Trace.busSafe, hdir]
  | setchip => simp [commandEvents, Trace.busSafe, hdir]
  | read =>
    rw [commandEvents, hdir]
    obtain ⟨T, -, -, hes⟩ | ⟨-, hes⟩ := sessionEvents_cases (s := s) fun T => readEvents T s
    · rw [hes]
      exact Trace.busSafe_of_no_output _ (by simp [readEvents, Trace.output_notMem_readLead])
    · rw [hes]
      rfl
  | write v =>
    rw [commandEvents]
    obtain ⟨T, -, -, hes⟩ | ⟨-, hes⟩ := sessionEvents_cases (s := s) fun T =>
      writeSetupEvents T v s ++ iterationEvents T (loopEntry T v s)
    · have hturned : (absorbAll (writeSetupEvents T v s) s.blk).dir = .input := by
        rw [writeSetupEvents, absorbAll_writeLead]
      rw [hes, Trace.busSafe_append, hdir, hturned, writeSetupEvents, Trace.busSafe_writeLead, iterationEvents,
        Trace.busSafe_of_no_output _ (Trace.output_notMem_iteration _ _ _ _)]
      rfl
    · rw [hes, hdir]
      rfl

end Sys2Proof.Machine
end

section
/-! The obligations on the write pulse and on a further iteration (spec/44_write_verify_cycle.md R204, R206). -/

namespace Sys2Proof.Machine

/-- Settles O30: whatever the step emits is a beginning of an iteration, which leaves WE alone. -/
theorem verifyIterationStoresNothing : Obligations.VerifyIterationStoresNothing := by
  intro s t c hseq h hd
  obtain ⟨T, es, hes, hemitted⟩ := emitted_of_wr6a hseq h
  have hwe : Trace.writes .we true es = 0 := Trace.writes_eq_zero_of_isPrefix hes (by simp [iterationEvents])
  obtain ⟨c', hd', hsame⟩ := replay_sameChip es hd hwe
  exact hsame.frame (hemitted.env ▸ hd')

/-- Settles O31: the pulse stands in the events before the loop of WRITE, and nowhere else. -/
theorem oneWritePulsePerWrite : Obligations.OneWritePulsePerWrite := by
  refine ⟨fun i s t h => ⟨commandEvents i s, (exec_emitted h).trace, ?command⟩, fun s t hseq h => ?loop⟩
  case command =>
    cases i with
    | openCmd => simp [commandEvents, Trace.openCmd]
    | closeCmd => simp [commandEvents]
    | setchip => rfl
    | read =>
      obtain ⟨T, -, -, hes⟩ | ⟨-, hes⟩ := sessionEvents_cases (s := s) fun T => readEvents T s
      · rw [commandEvents, hes]
        simp [readEvents, Trace.writes_append]
      · rw [commandEvents, hes]
        rfl
    | write v =>
      obtain ⟨T, ho, hT, hes⟩ | ⟨hmode, hes⟩ := sessionEvents_cases (s := s) fun T =>
        writeSetupEvents T v s ++ iterationEvents T (loopEntry T v s)
      · rw [commandEvents, hes]
        simp [Trace.writes_append, writeSetupEvents, Trace.writes_we_writeLead, iterationEvents, ho, hT]
      · have hno : ¬ (s.blk.isOpen = true ∧ s.blk.chip.isSome = true) := by
          rintro ⟨ho, hT⟩
          obtain hc | hn := hmode
          · simp [hc] at ho
          · simp [hn] at hT
        rw [commandEvents, hes]
        exact (if_neg hno).symm
  case loop =>
    obtain ⟨T, es, hes, hemitted⟩ := emitted_of_wr6a hseq h
    exact ⟨es, hemitted.trace, Trace.writes_eq_zero_of_isPrefix hes (by simp [iterationEvents])⟩

end Sys2Proof.Machine
end

section
/-! SUPPORT. The invariant over what a step can do (spec/10_state.md R45, R46, spec/41_address_latch.md R149). -/

namespace Sys2Proof.Machine

variable {s t : State} {T : ChipDesc}

/-- The reset values meet the invariant over any chip array in canonical form (R44). -/
theorem inv_of_resetValues (h : AtResetValues t.blk) (hmem : deviceWf t.env.device) : Inv t := by
  obtain ⟨hopen, hchip, -, -, -, -, -, hdir, hclk, -, hlat, -, hwe, -, -, hseq⟩ := h
  exact ⟨⟨hdir, hwe, hlat, hclk, .inl hseq⟩, ⟨by simp [hopen], by simp [hopen]⟩, by simp [ChipUsable, hchip], hmem⟩

/-- An error keeps the invariant (R262). -/
theorem raise_inv (h : Inv s) (e : Code) : Inv (raise e s) :=
  ⟨⟨h.rest.dir, h.rest.we, h.rest.lat, h.rest.clk, .inl rfl⟩, ⟨h.coherent.driven, h.coherent.latch⟩, h.usable, h.memory⟩

/-- The host's inputs and replies, ADDR and the staged description do not matter to the invariant. -/
theorem hostSide_inv (h : Inv s) (w : Word) (d : ChipDesc) (inputs : List HostInput) (vs : List Word) :
    Inv { s with blk := { s.blk with addrReg := w, stg := d }, host := inputs, replies := vs } :=
  ⟨⟨h.rest.dir, h.rest.we, h.rest.lat, h.rest.clk, h.rest.seq⟩, ⟨h.coherent.driven, h.coherent.latch⟩, h.usable,
    h.memory⟩

theorem withHost_inv (h : Inv s) (inputs : List HostInput) : Inv { s with host := inputs } :=
  hostSide_inv h s.blk.addrReg s.blk.stg inputs s.replies

/-- The loop of WRITE begins in the invariant (R201 to R205). -/
theorem loopEntry_inv (h : Inv s) (ho : s.blk.isOpen = true) (hT : s.blk.chip = some T) (v : Byte) :
    Inv (loopEntry T v s) where
  rest := ⟨rfl, rfl, by simp [loopEntry, h.rest.lat], by simp [loopEntry, h.rest.clk],
    .inr ⟨rfl, ho, Option.isSome_of_eq_some hT, rfl⟩⟩
  coherent := ⟨h.coherent.driven, fun _ => loopEntry_latch v (latchReady_of_inv h ho)⟩
  usable := h.usable
  memory := replay_deviceWf _ h.memory

/-- An iteration keeps the invariant (R206 to R209). -/
theorem iterationEnd_inv (h : Inv s) (ho : s.blk.isOpen = true) (hT : s.blk.chip = some T) :
    Inv (iterationEnd T s) := by
  obtain ⟨hopen, hchip, -, -, hcur, hdir, hclk, hlat, hoe, hwe, hdriven, -, -⟩ := iterationEnd_keeps T s
  have hlatch : (iterationEnd T s).env.latch = s.env.latch := replay_latch_keep _ s (by simp [iterationEvents])
  refine ⟨⟨hdir.trans h.rest.dir, hwe.trans h.rest.we, hlat.trans h.rest.lat, hclk.trans h.rest.clk, ?seq⟩,
    ⟨fun _ => hdriven.trans (h.coherent.driven ho), fun _ => ?latch⟩, ?usable, replay_deviceWf _ h.memory⟩
  case seq =>
    obtain ⟨hidle, -⟩ | ⟨hidle, -⟩ | hagain := afterTest_cases s.cfg (testedBlock T s)
    · exact .inl hidle
    · exact .inl hidle
    · exact .inr ⟨hagain, hopen.trans ho, hchip ▸ Option.isSome_of_eq_some hT, hoe⟩
  case latch => rw [hlatch, hcur, h.coherent.latch ho]
  case usable => exact fun T' hT' => h.usable T' (hchip ▸ hT')

/-- READ ends in the invariant (R149, R181). -/
theorem readEnd_inv (h : Inv s) (ho : s.blk.isOpen = true) (hT : s.blk.chip = some T) : Inv (readEnd T s) := by
  obtain ⟨t, v, hrun, -, -, -, hlatch⟩ := readSamplesAStableAddress s T h ho hT
  cases hrun.symm.trans (exec_read_eq_readEnd ho hT)
  exact ⟨⟨rfl, h.rest.we, by simp [readEnd, h.rest.lat], by simp [readEnd, h.rest.clk], .inl rfl⟩,
    ⟨h.coherent.driven, fun _ => hlatch⟩, h.usable, replay_deviceWf _ h.memory⟩

/-- Every command keeps the invariant. -/
theorem exec_inv {i : Instr} (h : Inv s) (hrun : exec i s = .next t) : Inv t := by
  cases i with
  | openCmd =>
    obtain ⟨-, -, hopen⟩ := openInitialises
    cases (hopen s).symm.trans hrun
    exact ⟨⟨rfl, rfl, rfl, rfl, .inl rfl⟩, ⟨fun _ => rfl, fun _ => replay_openCmd_latch s⟩, h.usable,
      replay_deviceWf _ h.memory⟩
  | closeCmd =>
    cases (exec_close_eq_replay s).symm.trans hrun
    exact ⟨⟨rfl, h.rest.we, h.rest.lat, h.rest.clk, .inl rfl⟩, ⟨by simp [closeDone], by simp [closeDone]⟩, h.usable,
      h.memory⟩
  | setchip =>
    obtain ⟨-, hset⟩ | ⟨hcap, hset⟩ := exec_setchip_cases s <;> cases hset.symm.trans hrun
    · exact raise_inv h .badChip
    · exact ⟨⟨h.rest.dir, h.rest.we, h.rest.lat, h.rest.clk, .inl rfl⟩, ⟨h.coherent.driven, h.coherent.latch⟩,
        fun T hT => Option.some.inj hT ▸ hcap, h.memory⟩
  | read =>
    obtain ⟨T, ho, hT, hread⟩ | ⟨e, -, -, hread⟩ := exec_read_cases s <;> cases hread.symm.trans hrun
    · exact readEnd_inv h ho hT
    · exact raise_inv h e
  | write v =>
    obtain ⟨T, ho, hT, hwrite⟩ | ⟨e, -, -, hwrite⟩ := exec_write_cases s v <;> cases hwrite.symm.trans hrun
    · exact iterationEnd_inv (loopEntry_inv h ho hT v) ho hT
    · exact raise_inv h e

theorem perform_inv {a : Access} (h : Inv s) (hrun : perform a s = .next t) : Inv t := by
  obtain hexec | - | ⟨w, d, vs⟩ := performed_of_perform hrun
  · exact exec_inv h hexec
  · exact raise_inv h .badCmd
  · exact hostSide_inv h w d s.host vs

/-- A cut keeps the invariant of both sides (R302). -/
theorem cutByReset_inv (hs : Inv s) (ht : Inv t) : Inv (cutByReset s t) := by
  obtain ⟨n, rest, -, hcut⟩ | ⟨inputs, hcut⟩ := cutByReset_cases s t
  · rw [hcut]
    exact inv_of_resetValues atResetValues_reset (replay_deviceWf _ hs.memory)
  · rw [hcut]
    exact withHost_inv ht inputs

/-- In the invariant a running command is the loop of a WRITE in a session, with OE high (R45). -/
theorem loop_of_inv (h : Inv s) (hseq : s.blk.seq ≠ .idle) :
    s.blk.seq = .wr6a ∧ s.blk.isOpen = true ∧ ∃ T, s.blk.chip = some T := by
  obtain ⟨hwr6a, ho, hchip, -⟩ := h.rest.seq.resolve_left hseq
  exact ⟨hwr6a, ho, Option.isSome_iff_exists.mp hchip⟩

theorem perform_answers (a : Access) (s : State) : ∃ t, perform a s = .next t := by
  cases a with
  | read idx => exact ⟨_, perform_read s idx⟩
  | write idx w =>
    obtain ⟨r, rfl⟩ | hres := index_cases idx
    · by_cases hcmd : r = .cmd
      · subst hcmd
        change ∃ t, runCommand w s = .next t
        rw [runCommand]
        split
        · exact everyCommandAnswers _ s
        · exact ⟨_, rfl⟩
      · exact ⟨_, hostWrite_regIndex s w hcmd⟩
    · exact ⟨_, hostWrite_reserved s w hres⟩

end Sys2Proof.Machine
end

section
/-! The obligations on the invariant and on the data bus (spec/10_state.md section 6, spec/60_exceptions.md section 4). -/

namespace Sys2Proof.Machine

/-- Settles O52: the reset values, with no chip behind the bus. -/
theorem invariantAtReset : Obligations.InvariantAtReset := inv_of_resetValues atResetValues_reset trivial

/-- Settles O53: each thing a step can do keeps the invariant, and so does a cut. -/
theorem everyStepKeepsInvariant : Obligations.EveryStepKeepsInvariant := by
  intro s t hinv h
  cases stepped_of_step h with
  | waits => exact hinv
  | resets => exact inv_of_resetValues atResetValues_reset hinv.memory
  | @performs a rest u _ _ hrun =>
    have hs := withHost_inv hinv rest
    exact cutByReset_inv hs (perform_inv hs hrun)
  | goesOn hseq hrun =>
    obtain ⟨hwr6a, ho, T, hT⟩ := loop_of_inv hinv hseq
    cases (resume_of_wr6a hwr6a hT hinv.rest.dir).symm.trans hrun
    exact cutByReset_inv hinv (iterationEnd_inv hinv ho hT)

/-- Settles O54: every access answers, and in the invariant so does the loop of a WRITE. -/
theorem machineNeverStops : Obligations.MachineNeverStops := by
  intro s hinv
  by_cases hseq : s.blk.seq = .idle
  · rw [step_of_idle hseq]
    cases hhost : s.host with
    | nil => exact ⟨_, acceptInput_nil hhost⟩
    | cons x rest =>
      cases x with
      | reset n => exact ⟨_, acceptInput_reset hhost⟩
      | access a =>
        obtain ⟨t, hrun⟩ := perform_answers a { s with host := rest }
        exact ⟨_, by rw [acceptInput_access hhost, hrun, andThen_next]⟩
  · obtain ⟨hwr6a, -, T, hT⟩ := loop_of_inv hinv hseq
    exact ⟨_, step_of_wr6a hwr6a hT hinv.rest.dir⟩

/-- Settles O55: a step emits a beginning of a command or of an iteration, and both keep the rule from bus input. -/
theorem busNeverContended : Obligations.BusNeverContended := by
  intro s t hinv h
  have hdir := hinv.rest.dir
  have hnone : t.trace = s.trace → ∃ es, t.trace = s.trace ++ es ∧ Trace.busSafe s.blk.oe s.blk.dir es = true :=
    fun htrace => ⟨[], by simpa using htrace, by simp [Trace.busSafe, hdir]⟩
  cases stepped_of_step h with
  | waits => exact hnone rfl
  | resets => exact hnone rfl
  | @performs a rest u hseq hhost hrun =>
    have hemitted : ∃ es, Emitted es { s with host := rest } u ∧ Trace.busSafe s.blk.oe s.blk.dir es = true := by
      have hsafe : Trace.busSafe s.blk.oe s.blk.dir [] = true := by simp [Trace.busSafe, hdir]
      obtain hexec | - | ⟨w, d, vs⟩ := performed_of_perform hrun
      · exact ⟨_, exec_emitted hexec, busSafe_commandEvents _ (s := { s with host := rest }) hdir⟩
      · exact ⟨[], emitted_nil rfl rfl, hsafe⟩
      · exact ⟨[], emitted_nil rfl rfl, hsafe⟩
    obtain ⟨es, hes, hsafe⟩ := hemitted
    obtain ⟨es', hbegin, hcut⟩ := hes.cut
    exact ⟨es', hcut.trace, Trace.busSafe_of_isPrefix s.blk hbegin hsafe⟩
  | goesOn hseq hrun =>
    obtain ⟨hwr6a, -⟩ := loop_of_inv hinv hseq
    obtain ⟨T, es, hbegin, hes⟩ := emitted_of_wr6a hwr6a h
    refine ⟨es, hes.trace, Trace.busSafe_of_isPrefix s.blk hbegin ?_⟩
    rw [hdir]
    exact Trace.busSafe_of_no_output _ (Trace.output_notMem_iteration _ _ _ _)

end Sys2Proof.Machine
end

section
/-! The obligations on the step and on reset (spec/10_state.md R42, spec/70_reset_and_hazards.md R300 to R302). -/

namespace Sys2Proof.Machine

/-- With no reset behind it the next access is performed and nothing is added (R42). -/
theorem step_of_access {s : State} {a : Access} {rest : List HostInput} (hseq : s.blk.seq = .idle)
    (hhost : s.host = .access a :: rest) (hrest : ∀ n r, rest ≠ .reset n :: r) :
    step s = perform a { s with host := rest } := by
  have hcut : ∀ t, cutByReset { s with host := rest } t = t := cutByReset_none hrest
  rw [step_of_idle hseq, acceptInput_access hhost]
  simp only [hcut]
  exact andThen_next_right _

/-- A write of a legal word to CMD is the command (R31, R95). -/
theorem perform_command {w : Word} {i : Instr} (hw : decode w = .ok i) (s : State) :
    perform (.write 0x00 w) s = exec i s := by
  change runCommand w s = exec i s
  rw [runCommand, hw]

/-- Settles O47: the step performs the access at the head of the inputs; on CMD that is the decoder's answer. -/
theorem stepRunsDecodedCommand : Obligations.StepRunsDecodedCommand := by
  intro s rest hseq hrest
  refine ⟨fun w i hhost hw => ?_, fun w e hhost hw => ?_, fun a hhost => step_of_access hseq hhost hrest,
    fun hhost => (step_of_idle hseq).trans (acceptInput_nil hhost)⟩
  · rw [step_of_access hseq hhost hrest, perform_command hw]
  · rw [step_of_access hseq hhost hrest]
    exact hostWrite_cmd_of_decode_error _ ⟨e, hw⟩

/-- Settles O48: going on with a command only prolongs the state. -/
theorem hostStalledWhileRunning : Obligations.HostStalledWhileRunning := by
  intro s t hseq hhost h
  rw [step_of_running hseq] at h
  obtain ⟨u, hresume, hcut⟩ := andThen_eq_next.mp h
  rw [cutByReset_none hhost] at hcut
  cases hcut
  have hprolongs := OnlyProlongs.resume s t hresume
  exact ⟨hprolongs.host, hprolongs.replies⟩

/-- `t` has the configuration of `s` and its trace goes on (R5, R10). -/
def Extends (s t : State) : Prop := t.cfg = s.cfg ∧ ∃ es, t.trace = s.trace ++ es

theorem Prolongs.toExtends {s t : State} (h : Prolongs s t) : Extends s t := ⟨h.cfg, h.trace⟩

theorem Extends.cut {s t : State} (h : Extends s t) : Extends s (cutByReset s t) := by
  obtain ⟨n, rest, -, hcut⟩ | ⟨inputs, hcut⟩ := cutByReset_cases s t
  · rw [hcut]
    exact ⟨by simp, (newEvents s t).take n, by simp⟩
  · rw [hcut]
    exact h

theorem perform_extends {s t : State} {a : Access} (h : perform a s = .next t) : Extends s t := by
  obtain hexec | - | ⟨w, d, vs⟩ := performed_of_perform h
  · exact (OnlyProlongs.exec _ s t hexec).toExtends
  · exact ⟨rfl, [], by simp⟩
  · exact ⟨rfl, [], by simp⟩

/-- Settles O51: each thing a step can do extends the state, and so does a cut. -/
theorem configurationFixedTraceGrows : Obligations.ConfigurationFixedTraceGrows := by
  intro s t h
  change Extends s t
  cases stepped_of_step h with
  | waits => exact ⟨rfl, [], by simp⟩
  | resets => exact ⟨rfl, [], by simp⟩
  | @performs a rest u _ _ hrun => exact (perform_extends hrun).cut
  | goesOn _ hrun => exact (OnlyProlongs.resume s _ hrun).toExtends.cut

/-- A cut `n` events into a step that emits `es` (R302). -/
theorem cutByReset_emitted {s t : State} {es : List Event} {n : Nat} {rest : List HostInput}
    (hhost : s.host = .reset n :: rest) (htrace : t.trace = s.trace ++ es) :
    (n < es.length → cutByReset s t = resetBlock { replay (es.take n) s with host := rest }) ∧
    (es.length ≤ n → cutByReset s t = { t with host := .reset (n - es.length) :: rest }) := by
  have hnew := newEvents_of_trace htrace
  refine ⟨fun hn => ?_, fun hn => ?_⟩
  · rw [cutByReset_at hhost (by rwa [hnew]), hnew]
  · rw [cutByReset_later hhost (by rw [hnew]; omega), hnew]

/-- Settles O50: the step with no reset pending emits `es`, and the cut falls within them or behind them. -/
theorem resetCutsCommandShort : Obligations.ResetCutsCommandShort := by
  refine ⟨fun s t i w n rest es hseq hhost hw hrun htrace => ?command, fun s T n rest hseq hT hdir hhost => ?loop⟩
  case command =>
    set s' : State := { s with host := .reset n :: rest }
    have hstep : step s = .next (cutByReset s' t) := by
      rw [step_of_idle hseq, acceptInput_access hhost, perform_command hw, hrun, andThen_next]
    obtain ⟨hwithin, hbehind⟩ := cutByReset_emitted (s := s') (t := t) rfl htrace
    refine ⟨fun hn => ⟨_, hstep, ?_⟩, fun hn => by rw [hstep, hbehind hn]⟩
    rw [hwithin hn]
    exact ⟨rfl, by simp [s'], rfl, by simp [s'],
      replay_env_congr _ (s := s') (s' := s) ⟨rfl, rfl, rfl, rfl, rfl, rfl, rfl, rfl, rfl⟩ rfl⟩
  case loop =>
    intro x y es
    have hstep := step_of_wr6a hseq hT hdir
    obtain ⟨hwithin, hbehind⟩ := cutByReset_emitted (t := iterationEnd T s) hhost (iterationEnd_trace T s)
    refine ⟨fun hn => ⟨_, hstep, ?_⟩, fun hn => ?_⟩
    · rw [hwithin hn]
      exact ⟨rfl, by simp [es]; rfl, rfl, by simp, rfl⟩
    · rw [hstep, hbehind hn]
      rfl

/-- Settles O49: an idle block takes the reset as its next input, and in a loop a reset due at once falls before the
first event of the iteration. -/
theorem resetValues : Obligations.ResetValues := by
  have hidle : ∀ (s : State) (n : Nat) (rest : List HostInput), s.blk.seq = .idle → s.host = .reset n :: rest →
      ∃ t, step s = .next t ∧ AtResetValues t.blk ∧ t.trace = s.trace ∧ t.env = s.env ∧ t.host = rest ∧
        t.cfg = s.cfg := fun s n rest hseq hhost =>
    ⟨_, (step_of_idle hseq).trans (acceptInput_reset hhost), atResetValues_reset, rfl, rfl, rfl, rfl⟩
  refine ⟨atResetValues_reset, rfl, hidle, fun s rest hinv hhost => ?_⟩
  by_cases hseq : s.blk.seq = .idle
  · exact hidle s 0 rest hseq hhost
  · obtain ⟨hwr6a, -, T, hT⟩ := loop_of_inv hinv hseq
    obtain ⟨hwithin, -⟩ := cutByReset_emitted (t := iterationEnd T s) hhost (iterationEnd_trace T s)
    have hsome : 0 < (iterationEvents T s).length := by
      simp [iterationEvents, Trace.iteration, Trace.reading]
    have hstep := step_of_wr6a hwr6a hT hinv.rest.dir
    rw [hwithin hsome] at hstep
    exact ⟨_, hstep, atResetValues_reset, rfl, rfl, rfl, rfl⟩

end Sys2Proof.Machine
end
